-- ==== Sys2Proof/Word.lean ====
section
/-! DEFINITION. The word types of the engine: bytes, 64-bit words, and byte sequences of a fixed length
(spec/00_scope.md section 4). All quantities of this hardware are unsigned. -/

namespace Sys2Proof

/-- `u8`: one byte of a byte space. -/
abbrev Byte := BitVec 8

/-- `u64`: a word of the transform, `WORD` = 64 bits (R4). -/
abbrev Word := BitVec 64

/-- A byte sequence of exactly `n` bytes, lowest offset first. -/
abbrev Bytes (n : Nat) := Vector Byte n

end Sys2Proof
end

