-- ==== Sys2Proof/Machine/Codec.lean ====
section
/-! DEFINITION. The byte/word codec, the rotates and the word arithmetic (spec/40_codec.md), and the two
accesses `MemRead` and `MemWrite` to a byte space (spec/20_memory.md R32). Pure functions. A byte sequence
of a wrong length (U6), an offset outside a space (R37) and a rotate count at or above the width (U5) are
not expressible: lengths, bounds and counts are in the types. -/

namespace Sys2Proof.Machine

/-- `0xFFFFFFFFFFFFFFFF` (spec/00_scope.md section 4). -/
def allOnes : Word := 0xFFFFFFFFFFFFFFFF

/-- The little-endian value of a byte sequence: the sum of `B[k] * 2^(8k)` (R70 to R73, R31). With `natToBytes` it
makes the round trips of R82 (`bytesToNat_natToBytes`, `natToBytes_bytesToNat`). -/
def bytesToNat : List Byte → Nat
  | [] => 0
  | b :: bs => b.toNat + 256 * bytesToNat bs

/-- The low `8n` bits of `x` as `n` little-endian bytes (R74 to R77, R31), inverse to `bytesToNat` (R82). -/
def natToBytes : Nat → Nat → List Byte
  | 0, _ => []
  | n + 1, x => BitVec.ofNat 8 x :: natToBytes n (x / 256)

@[simp] theorem natToBytes_length (n x : Nat) : (natToBytes n x).length = n := by
  induction n generalizing x with
  | zero => rfl
  | succ n ih => simp [natToBytes, ih]

/-- `LOAD16` (R70), inverse to `store16` (R82). -/
def load16 (B : Bytes 2) : BitVec 16 := BitVec.ofNat 16 (bytesToNat B.toList)

/-- `LOAD32` (R71), inverse to `store32` (R82). -/
def load32 (B : Bytes 4) : BitVec 32 := BitVec.ofNat 32 (bytesToNat B.toList)

/-- `LOAD48` (R72), inverse to `store48` (R82). -/
def load48 (B : Bytes 6) : BitVec 48 := BitVec.ofNat 48 (bytesToNat B.toList)

/-- `LOAD64` (R73), inverse to `store64` (R82). -/
def load64 (B : Bytes 8) : Word := BitVec.ofNat 64 (bytesToNat B.toList)

/-- `STORE16` (R74), inverse to `load16` (R82). -/
def store16 (x : BitVec 16) : Bytes 2 := ⟨⟨natToBytes 2 x.toNat⟩, natToBytes_length 2 _⟩

/-- `STORE32` (R75), inverse to `load32` (R82). -/
def store32 (x : BitVec 32) : Bytes 4 := ⟨⟨natToBytes 4 x.toNat⟩, natToBytes_length 4 _⟩

/-- `STORE48` (R76), inverse to `load48` (R82). -/
def store48 (x : BitVec 48) : Bytes 6 := ⟨⟨natToBytes 6 x.toNat⟩, natToBytes_length 6 _⟩

/-- `STORE64` (R77), inverse to `load64` (R82). -/
def store64 (x : Word) : Bytes 8 := ⟨⟨natToBytes 8 x.toNat⟩, natToBytes_length 8 _⟩

/-- `ROTR32(w, c)` for `0 <= c <= 31` (R78). -/
def rotr32 (w : BitVec 32) (c : Fin 32) : BitVec 32 :=
  if c.val = 0 then w else (w >>> c.val) ||| (w <<< (32 - c.val))

/-- `ROTR64(w, c)` for `0 <= c <= 63` (R79). -/
def rotr64 (w : Word) (c : Fin 64) : Word :=
  if c.val = 0 then w else (w >>> c.val) ||| (w <<< (64 - c.val))

/-- `add64(a, b) = (a + b) mod 2^64`; the carry out is discarded (R80). -/
def add64 (a b : Word) : Word := a + b

/-- The `n` bytes at offset `a` of a byte sequence that holds them. -/
def slice (S : List Byte) (a n : Nat) (h : a + n ≤ S.length) : Bytes n :=
  ⟨⟨(S.drop a).take n⟩, by simp; omega⟩

/-- `MemRead(S+a, n)`: the `n`-byte little-endian unsigned value at offset `a` (R32). -/
def memRead {N : Nat} (S : Bytes N) (a n : Nat) (h : a + n ≤ N) : Nat :=
  bytesToNat (slice S.toList a n (by simpa using h)).toList

/-- `MemRead(S+a, 8)` as the `u64` it is (R32, R73). -/
def memReadWord {N : Nat} (S : Bytes N) (a : Nat) (h : a + 8 ≤ N) : Word :=
  load64 (slice S.toList a 8 (by simpa using h))

/-- `MemWrite(S+a, n, x)`: `S[a+k] <- (x >> 8k) and 0xFF` for `k` in `0..n-1`, no other byte changes (R32). -/
def memWrite {N : Nat} (S : Bytes N) (a n x : Nat) (_h : a + n ≤ N) : Bytes N :=
  Vector.ofFn fun i =>
    if a ≤ i.val ∧ i.val < a + n then BitVec.ofNat 8 (x >>> (8 * (i.val - a))) else S[i]

end Sys2Proof.Machine
end

