-- ==== Sys2Proof/Machine/State.lean ====
section
/-! DEFINITION. The state of the engine as plain data: the context (spec/10_state.md R10 to R17), the
transient datapath spaces (R21), the command port (spec/30_encoding.md R50, R52), and reset (R24, R160). -/

namespace Sys2Proof.Machine

/-- `phase` (R17): which commands are accepted next. Its numeric coding is not architectural. -/
inductive Phase where
  | idle | fresh | absorbing | finalized
deriving DecidableEq, Repr

/-- The status of a response (spec/60_exceptions.md R140). -/
inductive Status where
  | ok
  | invalidDigestLength
  | invalidKeyLength
  | invalidKey
  | invalidOutputLength
  | bufferTooSmall
  | alreadyFinalized
  | notInitialized
  | illegalCommand
deriving DecidableEq, Repr

/-- The context: the engine's one instance of the Hash State (R10). -/
structure Context where
  /-- `h[0..7]`, the chaining words (R11). -/
  h : Vector Word 8
  /-- `t[0]`, the low word of the byte counter (R12). -/
  t0 : Word
  /-- `t[1]`, the high word of the byte counter (R12). -/
  t1 : Word
  /-- `f[0]`, the last-block flag (R13). -/
  f0 : Word
  /-- `f[1]`, the last-node flag (R13). -/
  f1 : Word
  /-- `buf[0..127]`, the pending-data buffer, also the byte space `BUF` (R14, R30). -/
  buf : Bytes 128
  /-- `buflen`, an 8-bit register: how many bytes of `buf` are valid (R14). -/
  buflen : Byte
  /-- `outlen`, an 8-bit register: the digest length (R15). -/
  outlen : Byte
  /-- `last_node`, one bit (R16). -/
  lastNode : Bool
  /-- `phase` (R17). -/
  phase : Phase
deriving DecidableEq, Repr

/-- The datapath spaces that exist inside one command; each is zero at every command boundary (R21). -/
structure Transient where
  /-- `v[0..15]`, the working vector of `F`. -/
  v : Vector Word 16
  /-- `m[0..15]`, the message words of `F`. -/
  m : Vector Word 16
  /-- `SCR`, the full serialized digest before truncation. -/
  scr : Bytes 64
  /-- `KB`, the zero-padded key block. -/
  kb : Bytes 128
  /-- `PB`, the parameter block being consumed or built. -/
  pb : Bytes 64
deriving DecidableEq, Repr

/-- The whole machine. `cmds` and `rsps` are the port: packets in flight, the model's own fields
(log entry 1). -/
structure State where
  /-- The context (R10). -/
  ctx : Context
  /-- The transient datapath state (R21). -/
  tmp : Transient
  /-- Command packets sent by the host and not yet executed, oldest first (R38, R50). -/
  cmds : List (List Byte)
  /-- Response packets sent by the engine, oldest first (R38, R52). -/
  rsps : List (List Byte)
deriving DecidableEq, Repr

/-- Why the machine would stop with a fault. EMPTY: the engine has no traps, every error is a response packet
after which it takes the next command (R143, R144), and every access is inside its space (R37). Nobody
raises one. -/
inductive Fault where
deriving DecidableEq, Repr

/-- Why a step would have no meaning. -/
inductive Refusal where
  /-- An instruction not modelled yet, raised by an arm of `exec` only. Safe: the machine stops where the
  hardware goes on. No arm raises it: all seven commands have their meaning. -/
  | notModelled (mnemonic : String)
deriving DecidableEq, Repr

/-- Every register of the context zero, `phase = Idle` (R24). -/
def Context.reset : Context :=
  { h := Vector.replicate 8 0, t0 := 0, t1 := 0, f0 := 0, f1 := 0, buf := Vector.replicate 128 0,
    buflen := 0, outlen := 0, lastNode := false, phase := .idle }

/-- All transient state zero (R24, R111). -/
def Transient.zero : Transient :=
  { v := Vector.replicate 16 0, m := Vector.replicate 16 0, scr := Vector.replicate 64 0,
    kb := Vector.replicate 128 0, pb := Vector.replicate 64 0 }

/-- The machine right after reset (R24, R160), with no packet in flight (log entry 1). -/
def State.reset : State := { ctx := Context.reset, tmp := Transient.zero, cmds := [], rsps := [] }

end Sys2Proof.Machine
end

