-- ==== Sys2Proof/Machine/Flags.lean ====
section
/-! DEFINITION. The only flags of the engine, `f[0]` and `f[1]` (spec/10_state.md R13), and the one place where
a carry is kept, the 128-bit byte counter (spec/42_hash_state_machine.md R101). -/

namespace Sys2Proof.Machine

/-- `INC(n)`: add `n` to `t`, low word first with carry into the high word; it wraps modulo `2^128` (R101). -/
def Context.inc (c : Context) (n : Word) : Context :=
  { c with
    t0 := add64 c.t0 n
    t1 := if add64 c.t0 n < n then add64 c.t1 1 else c.t1 }

/-- `f[0] <- ALLONES; if last_node = 1: f[1] <- ALLONES` (R106). -/
def Context.setFinalFlags (c : Context) : Context :=
  { c with
    f0 := allOnes
    f1 := if c.lastNode then allOnes else c.f1 }

/-- `f[0] <- 0; f[1] <- 0` (R102). -/
def Context.clearFlags (c : Context) : Context := { c with f0 := 0, f1 := 0 }

end Sys2Proof.Machine
end

