-- ==== Sys2Proof/Machine/Operands.lean ====
section
/-! DEFINITION. Operand forms and operand checks: the range tests of R140, the parameter block as bytes and as
words (spec/41_param_block.md R90 to R92), the key block (R103), the serialization of eight words (R106, R127)
and the word view of a 64-byte operand (R91, R127). -/

namespace Sys2Proof.Machine

/-- `1 <= n <= 64`, the range of a digest length (R92, R102, R103, R140). -/
def digestLengthOk (n : Byte) : Bool := 1 ≤ n.toNat && n.toNat ≤ 64

/-- `n <= 64`, the range of a key length (R92, R102, R140). -/
def keyLengthOk (n : Byte) : Bool := n.toNat ≤ 64

/-- `1 <= len(key) <= 64`, an acceptable key (R103, R140). -/
def keyOk (key : List Byte) : Bool := 1 ≤ key.length && key.length ≤ 64

/-- A 64-byte operand as eight little-endian words: word `i` is `MemRead(P+8i, 8)` (R91, R102, R127). -/
def wordsOf (P : Bytes 64) : Vector Word 8 :=
  Vector.ofFn fun i => memReadWord P (8 * i.val) (by omega)

/-- `for i in 0..7: MemWrite(S+8i, 8, h[i])` (R106, R127). -/
def writeWords (S : Bytes 64) (h : Vector Word 8) : Bytes 64 :=
  (List.finRange 8).foldl (fun S i => memWrite S (8 * i.val) 8 h[i].toNat (by omega)) S

/-- `for k in 0..15: MemWrite(S+a+k, 1, B[k])` (R93). -/
def writeField (S : Bytes 64) (a : Nat) (h : a + 16 ≤ 64) (B : Bytes 16) : Bytes 64 :=
  (List.finRange 16).foldl (fun S k => memWrite S (a + k.val) 1 B[k].toNat (by omega)) S

/-- An optional 16-byte field: absent leaves the zeros (R93). -/
def writeOptionalField (S : Bytes 64) (a : Nat) (h : a + 16 ≤ 64) : Option (Bytes 16) → Bytes 64
  | none => S
  | some B => writeField S a h B

/-- The block the builder writes: the assignments of R93 to `PB`, which hold the layout of R90. -/
def buildBlock (dl kl : Byte) (salt pers : Option (Bytes 16)) : Bytes 64 :=
  let S : Bytes 64 := Vector.replicate 64 0
  let S := memWrite S 0 1 dl.toNat (by omega)
  let S := memWrite S 1 1 kl.toNat (by omega)
  let S := memWrite S 2 1 1 (by omega)
  let S := memWrite S 3 1 1 (by omega)
  let S := writeOptionalField S 32 (by omega) salt
  writeOptionalField S 48 (by omega) pers

/-- `KB <- key ‖ zeros(128 - keylen)` (R103). -/
def keyBlock (key : List Byte) : Bytes 128 :=
  Vector.ofFn fun i => key.getD i.val 0

end Sys2Proof.Machine
end

