-- ==== Sys2Proof/Machine/Tables.lean ====
section
/-! DEFINITION. The read-only constants of the engine (spec/10_state.md R20): `IV`, `SIGMA` and the schedule
`QUAD` (spec/43_compress.md R120, R121, R123). -/

namespace Sys2Proof.Machine

/-- `IV[0..7]` (R120). -/
def iv : Vector Word 8 :=
  ⟨#[0x6a09e667f3bcc908, 0xbb67ae8584caa73b, 0x3c6ef372fe94f82b, 0xa54ff53a5f1d36f1,
     0x510e527fade682d1, 0x9b05688c2b3e6c1f, 0x1f83d9abfb41bd6b, 0x5be0cd19137e2179], rfl⟩

/-- Rows 0 to 5 of `SIGMA` (R121). -/
def sigmaLow : List (Vector (Fin 16) 16) :=
  [⟨#[0, 1, 2, 3, 4, 5, 6, 7, 8, 9, 10, 11, 12, 13, 14, 15], rfl⟩,
   ⟨#[14, 10, 4, 8, 9, 15, 13, 6, 1, 12, 0, 2, 11, 7, 5, 3], rfl⟩,
   ⟨#[11, 8, 12, 0, 5, 2, 15, 13, 10, 14, 3, 6, 7, 1, 9, 4], rfl⟩,
   ⟨#[7, 9, 3, 1, 13, 12, 11, 14, 2, 6, 5, 10, 4, 0, 15, 8], rfl⟩,
   ⟨#[9, 0, 5, 7, 2, 4, 10, 15, 14, 1, 11, 12, 6, 8, 3, 13], rfl⟩,
   ⟨#[2, 12, 6, 10, 0, 11, 8, 3, 4, 13, 7, 5, 15, 14, 1, 9], rfl⟩]

/-- Rows 6 to 11 of `SIGMA` (R121); rows 10 and 11 repeat rows 0 and 1. -/
def sigmaHigh : List (Vector (Fin 16) 16) :=
  [⟨#[12, 5, 1, 15, 14, 13, 4, 10, 0, 7, 6, 3, 9, 2, 8, 11], rfl⟩,
   ⟨#[13, 11, 7, 14, 12, 1, 3, 9, 5, 0, 15, 4, 8, 6, 2, 10], rfl⟩,
   ⟨#[6, 15, 14, 9, 11, 3, 0, 8, 12, 2, 13, 7, 1, 4, 10, 5], rfl⟩,
   ⟨#[10, 2, 8, 4, 7, 6, 1, 5, 15, 11, 9, 14, 3, 12, 13, 0], rfl⟩,
   ⟨#[0, 1, 2, 3, 4, 5, 6, 7, 8, 9, 10, 11, 12, 13, 14, 15], rfl⟩,
   ⟨#[14, 10, 4, 8, 9, 15, 13, 6, 1, 12, 0, 2, 11, 7, 5, 3], rfl⟩]

/-- `SIGMA[0..11][0..15]` (R121). -/
def sigma : Vector (Vector (Fin 16) 16) 12 := ⟨⟨sigmaLow ++ sigmaHigh⟩, rfl⟩

/-- An index quadruple `(a, b, c, d)` of the schedule (R123). -/
structure Quad where
  a : Fin 16
  b : Fin 16
  c : Fin 16
  d : Fin 16
deriving DecidableEq, Repr

/-- `QUAD[0..7]`: four column calls, then four diagonal calls (R123). -/
def quad : Vector Quad 8 :=
  ⟨#[⟨0, 4, 8, 12⟩, ⟨1, 5, 9, 13⟩, ⟨2, 6, 10, 14⟩, ⟨3, 7, 11, 15⟩,
     ⟨0, 5, 10, 15⟩, ⟨1, 6, 11, 12⟩, ⟨2, 7, 8, 13⟩, ⟨3, 4, 9, 14⟩], rfl⟩

end Sys2Proof.Machine
end

