-- ==== Sys2Proof/Machine/Transform.lean ====
section
/-! DEFINITION. The compression transform `F` as pure functions of the working vector and the message words
(spec/43_compress.md R122 to R126). There is one transform (R128). -/

namespace Sys2Proof.Machine

/-- Four of the eight assignments of `G`, each reading what the earlier ones wrote; the two halves differ in the
message word and the rotate counts (R122). -/
def mixHalf (v : Vector Word 16) (q : Quad) (x : Word) (r1 r2 : Fin 64) : Vector Word 16 :=
  let v := v.set q.a (add64 (add64 v[q.a] v[q.b]) x)
  let v := v.set q.d (rotr64 (v[q.d] ^^^ v[q.a]) r1)
  let v := v.set q.c (add64 v[q.c] v[q.d])
  v.set q.b (rotr64 (v[q.b] ^^^ v[q.c]) r2)

/-- `G(a, b, c, d, x, y)` in place on `v`: eight assignments (R122). -/
def mixG (v : Vector Word 16) (q : Quad) (x y : Word) : Vector Word 16 :=
  mixHalf (mixHalf v q x 32 24) q y 16 63

/-- Call `i` of round `r`: `x = m[SIGMA[r][2i]]`, `y = m[SIGMA[r][2i+1]]` (R123). -/
def mixCall (m : Vector Word 16) (r : Fin 12) (v : Vector Word 16) (i : Fin 8) : Vector Word 16 :=
  mixG v quad[i] m[sigma[r][2 * i.val]] m[sigma[r][2 * i.val + 1]]

/-- Round `r`: the eight calls in order (R126). -/
def mixRound (m : Vector Word 16) (v : Vector Word 16) (r : Fin 12) : Vector Word 16 :=
  (List.finRange 8).foldl (mixCall m r) v

/-- "Run 12 rounds" (R126). -/
def mixRounds (m : Vector Word 16) (v : Vector Word 16) : Vector Word 16 :=
  (List.finRange 12).foldl (mixRound m) v

/-- `m[k] = LOAD64(block[8k .. 8k+8))` (R124, step 1). -/
def messageWords (block : Bytes 128) : Vector Word 16 :=
  Vector.ofFn fun k => memReadWord block (8 * k.val) (by omega)

/-- The initial working vector (R124, step 2). -/
def workingVector (hin : Vector Word 8) (t0 t1 f0 f1 : Word) : Vector Word 16 :=
  ⟨#[hin[0], hin[1], hin[2], hin[3], hin[4], hin[5], hin[6], hin[7],
     iv[0], iv[1], iv[2], iv[3], iv[4] ^^^ t0, iv[5] ^^^ t1, iv[6] ^^^ f0, iv[7] ^^^ f1], rfl⟩

/-- `hout[i] = hin[i] xor v[i] xor v[i+8]` (R125, last line). -/
def feedForward (hin : Vector Word 8) (v : Vector Word 16) : Vector Word 8 :=
  Vector.ofFn fun i => hin[i] ^^^ v[i.val] ^^^ v[i.val + 8]

/-- `F(hin, block, t0, t1, f0, f1)` (R125). -/
def transformF (hin : Vector Word 8) (block : Bytes 128) (t0 t1 f0 f1 : Word) : Vector Word 8 :=
  feedForward hin (mixRounds (messageWords block) (workingVector hin t0 t1 f0 f1))

end Sys2Proof.Machine
end

