-- ==== Sys2Proof/Machine/Ops.lean ====
section
/-! DEFINITION. The named operations over the registers, the byte spaces and the port: responding, raising an
error (the engine's only form of exception), running `F` on the datapath, `ABSORB`, seeding a session, padding
and reading out the digest. The meanings of the commands are written in these. -/

namespace Sys2Proof.Machine

/-- The status codes (R140). -/
def Status.code : Status → Byte
  | .ok => 0x00
  | .invalidDigestLength => 0x01
  | .invalidKeyLength => 0x02
  | .invalidKey => 0x03
  | .invalidOutputLength => 0x04
  | .bufferTooSmall => 0x05
  | .alreadyFinalized => 0x06
  | .notInitialized => 0x07
  | .illegalCommand => 0x08

/-- A response packet: the header word `STATUS or (PLEN << 8)`, little-endian, then the payload (R52, R75). -/
def responsePacket (st : Status) (pay : List Byte) : List Byte :=
  (store32 (st.code.setWidth 32 ||| (BitVec.ofNat 32 pay.length <<< 8))).toList ++ pay

/-- `respond(st, pay)`: end the command with one response packet; the transient state is zeroed (R52, R111). -/
def State.respond (s : State) (st : Status) (pay : List Byte) : State :=
  { s with tmp := Transient.zero, rsps := s.rsps ++ [responsePacket st pay] }

/-- `raise E()`, the one form an exception takes here: no register of the context changes, nothing is saved, the
response carries the code and no payload (R140, R141, R143). There is no return from it: the engine takes the
next command as if the failed one had not been sent (R144). -/
def State.raise (s : State) (e : Status) : State := s.respond e []

/-- Replace the context. -/
def State.setCtx (s : State) (c : Context) : State := { s with ctx := c }

/-- `phase <- P` (R19). -/
def State.setPhase (s : State) (p : Phase) : State := s.setCtx { s.ctx with phase := p }

/-- Steps 1 to 3 of `F` on the datapath registers: `m` holds the message words and `v` the working vector after
12 rounds (R124, R126). -/
def State.runRounds (s : State) (hin : Vector Word 8) (block : Bytes 128) (t0 t1 f0 f1 : Word) : State :=
  { s with tmp :=
    { s.tmp with
      m := messageWords block
      v := mixRounds (messageWords block) (workingVector hin t0 t1 f0 f1) } }

/-- `h <- F(h, buf, t[0], t[1], f[0], f[1])` (R104, R106, R125). -/
def State.compressBuffer (s : State) : State :=
  let c := s.ctx
  let s1 := s.runRounds c.h c.buf c.t0 c.t1 c.f0 c.f1
  s1.setCtx { c with h := feedForward c.h s1.tmp.v }

/-- The flush of `ABSORB`: `INC(128)`, compress, `buflen <- 0`; `buf` keeps its bytes (R104). -/
def State.flush (s : State) : State :=
  let s1 := (s.setCtx (s.ctx.inc 128)).compressBuffer
  s1.setCtx { s1.ctx with buflen := 0 }

/-- `buf[buflen] <- b; buflen <- buflen + 1` (R104). Where `buflen` is 128 or more, which no run reaches
here (R18), no byte of `buf` is written (log entry 5). -/
def Context.putByte (c : Context) (b : Byte) : Context :=
  { c with buf := c.buf.setIfInBounds c.buflen.toNat b, buflen := c.buflen + 1 }

/-- `ABSORB(b)`, the lazy flush: a full buffer is compressed only when one more byte arrives (R104). -/
def State.absorb (s : State) (b : Byte) : State :=
  let s1 := if s.ctx.buflen = 128 then s.flush else s
  s1.setCtx (s1.ctx.putByte b)

/-- `for j in 0..n-1: ABSORB(D[j])` (R103, R105). -/
def State.absorbAll (s : State) (D : List Byte) : State := D.foldl State.absorb s

/-- The assignments of `INIT` with the block staged in `PB` (R102). -/
def Context.seed (c : Context) (P : Bytes 64) (ln : Bool) : Context :=
  let c1 := { c with h := Vector.ofFn fun i => iv[i] ^^^ (wordsOf P)[i], t0 := 0, t1 := 0 }
  let c2 := c1.clearFlags
  { c2 with buf := Vector.replicate 128 0, buflen := 0, outlen := P[0], lastNode := ln, phase := .fresh }

/-- Stage a parameter block in `PB` (R21). -/
def State.stageBlock (s : State) (P : Bytes 64) : State := { s with tmp := { s.tmp with pb := P } }

/-- Stage the zero-padded key in `KB` (R21, R103). -/
def State.stageKey (s : State) (key : List Byte) : State := { s with tmp := { s.tmp with kb := keyBlock key } }

/-- Seed a session from the block in `PB` (R102). -/
def State.seed (s : State) (ln : Bool) : State := s.setCtx (s.ctx.seed s.tmp.pb ln)

/-- `for i in buflen..127: buf[i] <- 0` (R106). -/
def Context.padBuffer (c : Context) : Context :=
  { c with buf := Vector.ofFn fun i => if c.buflen.toNat ≤ i.val then 0 else c.buf[i] }

/-- The last compression of `FINAL`: pad, set the flags, `INC(buflen)`, compress (R106). -/
def State.finish (s : State) : State :=
  (s.setCtx (s.ctx.padBuffer.setFinalFlags.inc (s.ctx.buflen.setWidth 64))).compressBuffer

/-- `for i in 0..7: MemWrite(SCR+8i, 8, h[i])` (R106). -/
def State.writeScratch (s : State) : State :=
  { s with tmp := { s.tmp with scr := writeWords s.tmp.scr s.ctx.h } }

/-- `build(dl, kl, salt?, pers?)`: the builder with its two failures, digest length first (R92, R93). -/
def build (dl kl : Byte) (salt pers : Option (Bytes 16)) : Except Status (Bytes 64) :=
  if !digestLengthOk dl then .error .invalidDigestLength
  else if !keyLengthOk kl then .error .invalidKeyLength
  else .ok (buildBlock dl kl salt pers)

/-- The phase check of `UPDATE` and `FINAL`: `NotInitialized` in `Idle`, `AlreadyFinalized` in `Finalized`
(R105, R106, R142). -/
def phaseCheck : Phase → Except Status Unit
  | .idle => .error .notInitialized
  | .finalized => .error .alreadyFinalized
  | .fresh => .ok ()
  | .absorbing => .ok ()

end Sys2Proof.Machine
end

