-- ==== Sys2Proof/Machine/Session.lean ====
section
/-! DEFINITION. The commands that use the context: `INIT`, `INIT_KEYED`, `UPDATE`, `FINAL`, `WIPE`
(spec/42_hash_state_machine.md R102, R103, R105, R106, R107). -/

namespace Sys2Proof.Machine

/-- `INIT ln, pb` (R102). -/
def execInit (ln : Bool) (pb : Bytes 64) (s : State) : Host.Outcome State Fault Refusal :=
  if !digestLengthOk pb[0] then .next (s.raise .invalidDigestLength)
  else if !keyLengthOk pb[1] then .next (s.raise .invalidKeyLength)
  else .next (((s.stageBlock pb).seed ln).respond .ok [])

/-- `INIT_KEYED outlen, key` (R103). -/
def execInitKeyed (outlen : Byte) (key : List Byte) (s : State) : Host.Outcome State Fault Refusal :=
  if !digestLengthOk outlen then .next (s.raise .invalidOutputLength)
  else if !keyOk key then .next (s.raise .invalidKey)
  else
    let s1 := (s.stageBlock (buildBlock outlen (BitVec.ofNat 8 key.length) none none)).seed false
    let s2 := s1.stageKey key
    let s3 := s2.absorbAll s2.tmp.kb.toList
    .next ((s3.setPhase .fresh).respond .ok [])

/-- `UPDATE data` (R105). -/
def execUpdate (data : List Byte) (s : State) : Host.Outcome State Fault Refusal :=
  match phaseCheck s.ctx.phase with
  | .error e => .next (s.raise e)
  | .ok () => .next (((s.absorbAll data).setPhase .absorbing).respond .ok [])

/-- `FINAL cap` (R106, R108). -/
def execFinal (cap : Byte) (s : State) : Host.Outcome State Fault Refusal :=
  match phaseCheck s.ctx.phase with
  | .error e => .next (s.raise e)
  | .ok () =>
    if cap < s.ctx.outlen then .next (s.raise .bufferTooSmall)
    else
      let s1 := (s.finish.writeScratch).setPhase .finalized
      .next (s1.respond .ok (s1.tmp.scr.toList.take s1.ctx.outlen.toNat))

/-- `WIPE` (R107): every register of the context zero, `phase = Idle`. -/
def execWipe (s : State) : Host.Outcome State Fault Refusal :=
  .next ((s.setCtx
    { h := Vector.replicate 8 0, t0 := 0, t1 := 0, f0 := 0, f1 := 0, buf := Vector.replicate 128 0,
      buflen := 0, outlen := 0, lastNode := false, phase := .idle }).respond .ok [])

end Sys2Proof.Machine
end

