-- ==== Sys2Proof/Machine/Stateless.lean ====
section
/-! DEFINITION. The commands that do not touch the context: `PBUILD` (spec/41_param_block.md R93) and
`COMPRESS` (spec/43_compress.md R127). -/

namespace Sys2Proof.Machine

/-- `PBUILD dl, kl [, salt] [, pers]` (R93). -/
def execPbuild (dl kl : Byte) (salt pers : Option (Bytes 16)) (s : State) :
    Host.Outcome State Fault Refusal :=
  match build dl kl salt pers with
  | .error e => .next (s.raise e)
  | .ok P =>
    let s1 := s.stageBlock P
    .next (s1.respond .ok s1.tmp.pb.toList)

/-- `COMPRESS h, block, t0, t1, f0, f1` (R127). -/
def execCompress (h : Bytes 64) (block : Bytes 128) (t0 t1 f0 f1 : Word) (s : State) :
    Host.Outcome State Fault Refusal :=
  let s1 := s.runRounds (wordsOf h) block t0 t1 f0 f1
  let rsp := writeWords (Vector.replicate 64 0) (feedForward (wordsOf h) s1.tmp.v)
  .next (s1.respond .ok rsp.toList)

end Sys2Proof.Machine
end

