-- ==== Sys2Proof/Syntax.lean ====
section
/-! DEFINITION. The seven commands, one constructor per row of spec/opcode_table.json
(spec/30_encoding.md R53, R54). Operands are as the text syntax of R59 lists them; a field the spec gives a
fixed length has that length in its type. -/

namespace Sys2Proof

/-- A command with its operands (R53). -/
inductive Instr where
  /-- `INIT ln, pb` (R102): start a session from a parameter block. -/
  | init (ln : Bool) (pb : Bytes 64)
  /-- `INIT_KEYED outlen, key` (R103): start a keyed session; the key may have any length. -/
  | initKeyed (outlen : Byte) (key : List Byte)
  /-- `UPDATE data` (R105): absorb data of any length. -/
  | update (data : List Byte)
  /-- `FINAL cap` (R106): finish; `cap` is the capacity of the host's output buffer. -/
  | final (cap : Byte)
  /-- `WIPE` (R107): zero the context. -/
  | wipe
  /-- `PBUILD dl, kl [, salt] [, pers]` (R93): build a parameter block. -/
  | pbuild (dl kl : Byte) (salt pers : Option (Bytes 16))
  /-- `COMPRESS h, block, t0, t1, f0, f1` (R127): run the transform once on operands. -/
  | compress (h : Bytes 64) (block : Bytes 128) (t0 t1 f0 f1 : Word)
deriving DecidableEq, Repr

end Sys2Proof
end

