-- ==== Sys2Proof/Machine/Dispatch.lean ====
section
/-! DEFINITION. The dispatch: one arm per command, one meaning each. -/

namespace Sys2Proof.Machine

def exec (i : Instr) (s : State) : Host.Outcome State Fault Refusal :=
  match i with
  | .init ln pb => Sys2Proof.Machine.execInit ln pb s
  | .initKeyed outlen key => Sys2Proof.Machine.execInitKeyed outlen key s
  | .update data => Sys2Proof.Machine.execUpdate data s
  | .final cap => Sys2Proof.Machine.execFinal cap s
  | .wipe => Sys2Proof.Machine.execWipe s
  | .pbuild dl kl salt pers => Sys2Proof.Machine.execPbuild dl kl salt pers s
  | .compress h block t0 t1 f0 f1 => Sys2Proof.Machine.execCompress h block t0 t1 f0 f1 s

end Sys2Proof.Machine
end

