-- ==== Sys2Proof/Decode.lean ====
section
/-! DEFINITION. Decoding a command packet, total on any bytes, and encoding a command
(spec/30_encoding.md R50 to R58). Decoding reads the packet and nothing else (R57). -/

namespace Sys2Proof

open Machine

/-- Why a packet is malformed, in the order of the tests of R56. All four are answered `IllegalCommand`. -/
inductive Malformed where
  /-- Test 1: `len(K) < 4`, no complete header. -/
  | shortPacket
  /-- Test 2: `OPC` is no opcode of the map. -/
  | reservedOpcode
  /-- Test 3: a bit that must be zero is one. -/
  | reservedBits
  /-- Test 4: the payload has not the length R55 requires. -/
  | payloadLength
deriving DecidableEq, Repr

/-- The rows of the opcode map (R54), by mnemonic. -/
inductive Opcode where
  | init | initKeyed | update | final | wipe | pbuild | compress
deriving DecidableEq, Repr

/-- The seven rows, in the table's order (R54). -/
def Opcode.all : List Opcode := [.init, .initKeyed, .update, .final, .wipe, .pbuild, .compress]

/-- Column `OPC` of the opcode map (R54). -/
def Opcode.code : Opcode → Byte
  | .init => 0x01
  | .initKeyed => 0x02
  | .update => 0x03
  | .final => 0x04
  | .wipe => 0x05
  | .pbuild => 0x10
  | .compress => 0x11

/-- Column `mask` of the opcode map (R54). -/
def Opcode.mask : Opcode → BitVec 32
  | .init => 0xFFFFFEFF
  | .initKeyed => 0xFFFF00FF
  | .update => 0xFFFFFFFF
  | .final => 0xFFFF00FF
  | .wipe => 0xFFFFFFFF
  | .pbuild => 0xFC0000FF
  | .compress => 0xFFFFFFFF

/-- Column `match` of the opcode map (R54). -/
def Opcode.pattern : Opcode → BitVec 32
  | .init => 0x00000001
  | .initKeyed => 0x00000002
  | .update => 0x00000003
  | .final => 0x00000004
  | .wipe => 0x00000005
  | .pbuild => 0x00000010
  | .compress => 0x00000011

/-- The row of a command (R54). -/
def Instr.opcode : Instr → Opcode
  | .init _ _ => .init
  | .initKeyed _ _ => .initKeyed
  | .update _ => .update
  | .final _ => .final
  | .wipe => .wipe
  | .pbuild _ _ _ _ => .pbuild
  | .compress _ _ _ _ _ _ => .compress

/-- Field `OPC = H[7:0]` of the header word (R51). -/
def fieldOPC (H : BitVec 32) : Byte := H.extractLsb' 0 8

/-- Field `A = H[15:8]` (R51). -/
def fieldA (H : BitVec 32) : Byte := H.extractLsb' 8 8

/-- Field `B = H[23:16]` (R51). -/
def fieldB (H : BitVec 32) : Byte := H.extractLsb' 16 8

/-- Field `C = H[31:24]` (R51). -/
def fieldC (H : BitVec 32) : Byte := H.extractLsb' 24 8

/-- Operand bit `LN = A[0]` of `INIT` (R53). -/
def bitLN (H : BitVec 32) : Bool := (fieldA H).getLsbD 0

/-- Operand bit `HS = C[0]` of `PBUILD` (R53). -/
def bitHS (H : BitVec 32) : Bool := (fieldC H).getLsbD 0

/-- Operand bit `HP = C[1]` of `PBUILD` (R53). -/
def bitHP (H : BitVec 32) : Bool := (fieldC H).getLsbD 1

/-- The row whose `OPC` the header has, if any (R54, R56 test 2). -/
def opcodeOf (H : BitVec 32) : Option Opcode :=
  Opcode.all.find? fun op => op.code == fieldOPC H

/-- The payload length a row requires, `none` where every length is accepted (R55). -/
def requiredLength (op : Opcode) (H : BitVec 32) : Option Nat :=
  match op with
  | .init => some 64
  | .initKeyed => none
  | .update => none
  | .final => some 0
  | .wipe => some 0
  | .pbuild => some (16 * (bitHS H).toNat + 16 * (bitHP H).toNat)
  | .compress => some 224

/-- The operands of a packet whose header has passed tests 1 to 3 (R53), or test 4's refusal (R55, R56). -/
def decodePayload (op : Opcode) (H : BitVec 32) (pay : List Byte) : Except Malformed Instr :=
  match op with
  | .init =>
    if h : pay.length = 64 then .ok (.init (bitLN H) ⟨⟨pay⟩, h⟩) else .error .payloadLength
  | .initKeyed => .ok (.initKeyed (fieldA H) pay)
  | .update => .ok (.update pay)
  | .final => if pay.length = 0 then .ok (.final (fieldA H)) else .error .payloadLength
  | .wipe => if pay.length = 0 then .ok .wipe else .error .payloadLength
  | .pbuild =>
    if h : pay.length = 16 * (bitHS H).toNat + 16 * (bitHP H).toNat then
      .ok (.pbuild (fieldA H) (fieldB H)
        (if hs : bitHS H = true then some (slice pay 0 16 (by simp [h, hs])) else none)
        (if hp : bitHP H = true then
          some (slice pay (16 * (bitHS H).toNat) 16 (by simp [h, hp])) else none))
    else .error .payloadLength
  | .compress =>
    if h : pay.length = 224 then
      .ok (.compress (slice pay 0 64 (by omega)) (slice pay 64 128 (by omega))
        (load64 (slice pay 192 8 (by omega))) (load64 (slice pay 200 8 (by omega)))
        (load64 (slice pay 208 8 (by omega))) (load64 (slice pay 216 8 (by omega))))
    else .error .payloadLength

/-- The header word of four bytes, `H = MemRead(K+0, 4)` (R51, R71). -/
def headerWord (k0 k1 k2 k3 : Byte) : BitVec 32 := load32 ⟨#[k0, k1, k2, k3], rfl⟩

/-- Decoding a command packet: the tests of R56 in their order, then the operands of R53. -/
def decode : List Byte → Except Malformed Instr
  | k0 :: k1 :: k2 :: k3 :: pay =>
    let H := headerWord k0 k1 k2 k3
    match opcodeOf H with
    | none => .error .reservedOpcode
    | some op =>
      if H &&& op.mask = op.pattern then decodePayload op H pay else .error .reservedBits
  | _ => .error .shortPacket

/-- A command packet from its four header bytes and its payload (R50, R51). -/
def packet (opc a b c : Byte) (pay : List Byte) : List Byte := opc :: a :: b :: c :: pay

/-- The flag byte `C` of `PBUILD`: bit 0 `HS`, bit 1 `HP` (R53). -/
def presenceByte (hs hp : Bool) : Byte := BitVec.ofNat 8 (hs.toNat + 2 * hp.toNat)

/-- An optional 16-byte operand in a payload: its bytes if present (R53). -/
def optionBytes : Option (Bytes 16) → List Byte
  | none => []
  | some B => B.toList

/-- The packet of a command, from the operand table of R53 and the opcode map of R54. -/
def encode : Instr → List Byte
  | .init ln pb => packet 0x01 (if ln then 1 else 0) 0 0 pb.toList
  | .initKeyed outlen key => packet 0x02 outlen 0 0 key
  | .update data => packet 0x03 0 0 0 data
  | .final cap => packet 0x04 cap 0 0 []
  | .wipe => packet 0x05 0 0 0 []
  | .pbuild dl kl salt pers =>
    packet 0x10 dl kl (presenceByte salt.isSome pers.isSome) (optionBytes salt ++ optionBytes pers)
  | .compress h block t0 t1 f0 f1 =>
    packet 0x11 0 0 0 (h.toList ++ block.toList ++ (store64 t0).toList ++ (store64 t1).toList
      ++ (store64 f0).toList ++ (store64 f1).toList)

/-- The packet the host's question about a table row stands for: the bits `w` of the header, bit 0 the least
significant bit of the first byte, every later bit zero, and a payload of zeros as long as R55 requires of
that header (none where every length is accepted). -/
def tablePacket (nbits w : Nat) : List Byte :=
  let hdr := natToBytes (max 4 ((nbits + 7) / 8)) (w % 2 ^ nbits)
  let H : BitVec 32 := BitVec.ofNat 32 (w % 2 ^ nbits)
  let len := ((opcodeOf H).bind fun op => requiredLength op H).getD 0
  hdr ++ List.replicate (len + 4 - hdr.length) 0

/-- The instruction the decoder reads from a table word (none where it refuses). -/
def decodeTableWord (nbits w : Nat) : Option Instr :=
  match decode (tablePacket nbits w) with
  | .ok i => some i
  | .error _ => none

end Sys2Proof
end

