-- ==== Sys2Proof/Machine/Fetch.lean ====
section
/-! DEFINITION. Taking the next command packet from the port, and answering a malformed one
(spec/20_memory.md R38, spec/30_encoding.md R56). There is no instruction memory (R40): a command is the packet
the host sends. -/

namespace Sys2Proof.Machine

/-- The oldest packet sent and not yet executed, if there is one (R38). -/
def State.nextPacket (s : State) : Option (List Byte) := s.cmds.head?

/-- The state in which the packet just taken is executed: it has left the port (R38). -/
def State.takePacket (s : State) : State := { s with cmds := s.cmds.tail }

/-- A malformed packet is answered `IllegalCommand` with an empty payload and changes no state (R56). -/
def State.illegal (s : State) : State := s.raise .illegalCommand

/-- The host has just sent packet `K`, and it is the next one the engine takes. -/
def State.offer (s : State) (K : List Byte) : State := { s with cmds := K :: s.cmds }

end Sys2Proof.Machine
end

