-- ==== Sys2Proof/Machine/Step.lean ====
section
/-! DEFINITION. One step of the engine: take the oldest command packet, decode it, execute it, answer it
(spec/00_scope.md R5, spec/20_memory.md R38). With no packet there is nothing to do (R6, log entry 3). -/

namespace Sys2Proof.Machine

/-- One step: one command is one atomic step (R5). -/
def step (s : State) : Host.Outcome State Fault Refusal :=
  match s.nextPacket with
  | none => .next s
  | some K =>
    match decode K with
    | .error _ => .next s.takePacket.illegal
    | .ok i => exec i s.takePacket

/-- `s` with the packet of a table word as the next packet the engine takes (log entry 6). -/
def State.withFetchWord (s : State) (nbits w : Nat) : State := s.offer (tablePacket nbits w)

end Sys2Proof.Machine
end

