-- ==== Sys2Proof/Config.lean ====
section
/-! DEFINITION. What the spec leaves to an implementation: one open parameter, `MAX_PAYLOAD`
(spec/00_scope.md R4, spec/92_eei_decisions.md D29). Command latency (D34) is not modelled. No result of
any command is undefined, so there is no free value here. -/

namespace Sys2Proof

/-- The open parameters. `maxPayload = none` is the spec's default, unbounded (any finite length). -/
structure Config where
  maxPayload : Option Nat
deriving DecidableEq, Repr

/-- The spec's default: every finite payload is delivered (R4, R50). Log entry 4. -/
def Config.unbounded : Config := { maxPayload := none }

/-- "a finite `MAX_PAYLOAD` must be at least 224, the payload of `COMPRESS`" (R50). -/
def Config.wf (c : Config) : Bool :=
  match c.maxPayload with
  | none => true
  | some m => 224 ≤ m

/-- Whether the transport delivers a packet with a payload of `n` bytes (R50). -/
def Config.carries (c : Config) (n : Nat) : Bool :=
  match c.maxPayload with
  | none => true
  | some m => n ≤ m

end Sys2Proof
end

