-- ==== Sys2Proof/Machine/HostSide.lean ====
section
/-! DEFINITION. The host's side of the port: sending packets through the transport, collecting responses,
asserting reset (spec/30_encoding.md R50, spec/70_reset_and_hazards.md R160), and the host-side expansions,
which are lists of commands and no encodings (R60). -/

namespace Sys2Proof.Machine

/-- The host sends packet `K`. A payload longer than `MAX_PAYLOAD` is never delivered (R50). -/
def State.send (c : Config) (K : List Byte) (s : State) : State :=
  if c.carries (K.length - 4) then { s with cmds := s.cmds ++ [K] } else s

/-- The host collects the responses that have arrived. -/
def State.collect (s : State) : State := { s with rsps := [] }

/-- Reset between commands: every register as after reset, the port untouched (R160). -/
def State.assertReset (s : State) : State := { s with ctx := Context.reset, tmp := Transient.zero }

/-- Reset while the oldest command is in progress: the command is abandoned and produces no response, nothing
of it survives, its packet included (R160, U14; log entry 7 for the packets behind it). -/
def State.resetDuringCommand (s : State) : State := { s.assertReset with cmds := s.cmds.tail }

/-- Pseudo-command `HASH outlen=n, data=D` (R60). For `n` of 0 or above 64 `PBUILD` fails and answers no block, and R60
does not say what the host sends then: that the list goes on, with the block `buildBlock n 0` would hold as `INIT`'s
operand, is the model's choice (DESIGN CHOICE, log entry 10). -/
def hashCommands (n : Byte) (D : List Byte) : List Instr :=
  [.pbuild n 0 none none, .init false (buildBlock n 0 none none), .update D, .final n]

/-- Pseudo-command `MAC outlen=n, key=Kb, data=D` (R60). -/
def macCommands (n : Byte) (key D : List Byte) : List Instr :=
  [.initKeyed n key, .update D, .final n]

/-- Cut `D` greedily into pieces of `m` bytes, the last one of what is left; the second argument bounds the number
of cuts, and `D.length` cuts are always enough. Greedy cutting is the model's choice (DESIGN CHOICE, log entry 9). -/
def cutPieces (m : Nat) : Nat → List Byte → List (List Byte)
  | 0, D => [D]
  | cuts + 1, D => if m = 0 ∨ D.length ≤ m then [D] else D.take m :: cutPieces m cuts (D.drop m)

/-- `UPDATE` of more than `m` bytes: consecutive `UPDATE` commands over consecutive pieces (R60). R60 does not say
how long the pieces are: that they are `m` bytes each, the last one at most `m`, is the model's choice (DESIGN
CHOICE, log entry 9), as is the one piece sent for `m = 0`, which is no `MAX_PAYLOAD` (R50). -/
def updatePieces (m : Nat) (D : List Byte) : List Instr := (cutPieces m D.length D).map Instr.update

/-- The registry's `init()`: `INIT_KEYED` when a key was set, `PBUILD` then `INIT` otherwise (R60). For `n` of 0 or
above 64, where `PBUILD` answers no block, that `INIT` is sent all the same, with the block `buildBlock n 0` would
hold, is the model's choice (DESIGN CHOICE, log entry 10). -/
def registryInit (n : Byte) : Option (List Byte) → List Instr
  | some key => [.initKeyed n key]
  | none => [.pbuild n 0 none none, .init false (buildBlock n 0 none none)]

/-- The registry's `finalize(out)`: `FINAL cap=min(len(out), 255)` (R60). -/
def registryFinalize (outLength : Nat) : List Instr := [.final (BitVec.ofNat 8 (min outLength 255))]

end Sys2Proof.Machine
end

