-- ==== Sys2Proof/WellFormed.lean ====
section
/-! DEFINITION. Well-formed commands. Operand widths and fixed lengths are in the types of `Instr`, so the
one check left is the transport's: the payload must not be longer than `MAX_PAYLOAD` (spec/30_encoding.md
R50). Under the default configuration every command is well formed. -/

namespace Sys2Proof

/-- `len(PAY)` of a command's packet (R53, R55). -/
def Instr.payloadLength : Instr → Nat
  | .init _ _ => 64
  | .initKeyed _ key => key.length
  | .update data => data.length
  | .final _ => 0
  | .wipe => 0
  | .pbuild _ _ salt pers => 16 * salt.isSome.toNat + 16 * pers.isSome.toNat
  | .compress _ _ _ _ _ _ => 224

/-- The transport can deliver the command's packet (R50). -/
def Instr.wf (c : Config) (i : Instr) : Bool := c.carries i.payloadLength

end Sys2Proof
end

