-- ==== Sys2Proof/Safety.lean ====
section
/-! DEFINITION. The terms claims are stated in: the invariants of spec/10_state.md R18, what no response may
depend on (R14, R100, spec/93_implementation_defined.md U2, U10), and the hash of a whole message, written
block by block (spec/42_hash_state_machine.md R108, R110) and without any of the engine's registers. -/

namespace Sys2Proof.Machine

/-- `phase` in `{Fresh, Absorbing}`: a session is open. -/
def Phase.isOpen : Phase → Bool
  | .idle => false
  | .fresh => true
  | .absorbing => true
  | .finalized => false

/-- The invariants of R18, items 1 to 5, and what items 6 and 7 say of the registers alone: in an open session
the low counter word is a multiple of 128, and an empty buffer means that nothing was ever flushed. -/
abbrev Context.Inv (c : Context) : Prop :=
  (c.phase = .idle → c = Context.reset) ∧
  (c.phase ≠ .idle → 1 ≤ c.outlen.toNat ∧ c.outlen.toNat ≤ 64) ∧
  c.buflen.toNat ≤ 128 ∧
  (c.f0 = if c.phase = .finalized then allOnes else 0) ∧
  (c.f1 = if c.phase = .finalized ∧ c.lastNode = true then allOnes else 0) ∧
  (c.phase.isOpen = true → c.t0.toNat % 128 = 0) ∧
  (c.phase.isOpen = true → c.buflen = 0 → c.t0 = 0 ∧ c.t1 = 0)

/-- The invariant of the whole machine: R18 for the context, R21 and R111 for the transient state. -/
abbrev State.Inv (s : State) : Prop := s.ctx.Inv ∧ s.tmp = Transient.zero

/-- Two contexts no command can tell apart: both idle, or both finalized, or both in an open session with equal
registers and equal valid bytes of `buf` (the stale bytes, and `Fresh` against `Absorbing`, do not count). -/
def Context.Alike (c d : Context) : Prop :=
  (c.phase = .idle ∧ d.phase = .idle) ∨
  (c.phase = .finalized ∧ d.phase = .finalized) ∨
  (c.phase.isOpen = true ∧ d.phase.isOpen = true ∧ c.h = d.h ∧ c.t0 = d.t0 ∧ c.t1 = d.t1 ∧
    c.f0 = d.f0 ∧ c.f1 = d.f1 ∧ c.buflen = d.buflen ∧ c.outlen = d.outlen ∧ c.lastNode = d.lastNode ∧
    ∀ i : Fin 128, i.val < c.buflen.toNat → c.buf[i] = d.buf[i])

/-- Two machines that agree on everything the host has sent and received, with contexts it cannot tell apart. -/
def State.Alike (s t : State) : Prop :=
  s.ctx.Alike t.ctx ∧ s.cmds = t.cmds ∧ s.rsps = t.rsps

/-- A 128-byte block from at most 128 bytes, zero-padded. -/
def padBlock (D : List Byte) : Bytes 128 := Vector.ofFn fun i => D.getD i.val 0

/-- The two counter words of a byte count, low word first (R12). -/
def countLow (n : Nat) : Word := BitVec.ofNat 64 n
def countHigh (n : Nat) : Word := BitVec.ofNat 64 (n / 2 ^ 64)

/-- Compress every 128-byte block of `D` that is followed by a further byte; the result is the chaining words,
the count of bytes compressed and the last 1 to 128 bytes (R110). The first argument bounds the recursion. -/
def foldBlocks : Nat → Vector Word 8 → Nat → List Byte → Vector Word 8 × Nat × List Byte
  | 0, h, n, D => (h, n, D)
  | fuel + 1, h, n, D =>
    if D.length ≤ 128 then (h, n, D)
    else
      foldBlocks fuel
        (transformF h (padBlock (D.take 128)) (countLow (n + 128)) (countHigh (n + 128)) 0 0)
        (n + 128) (D.drop 128)

/-- The little-endian serialization of eight words (R108). -/
def serialize (h : Vector Word 8) : List Byte := h.toList.flatMap fun w => (store64 w).toList

/-- The digest of the message `D` under the parameter block `P`: the hash the spec's session computes, as one
function of the whole message (R102, R106, R108, R110). -/
def messageDigest (P : Bytes 64) (lastNode : Bool) (D : List Byte) : List Byte :=
  let h0 : Vector Word 8 := Vector.ofFn fun i => iv[i] ^^^ (wordsOf P)[i]
  let (h, n, tail) := foldBlocks D.length h0 0 D
  let last := transformF h (padBlock tail) (countLow (n + tail.length)) (countHigh (n + tail.length))
    allOnes (if lastNode then allOnes else 0)
  (serialize last).take P[0].toNat

end Sys2Proof.Machine
end

