-- ==== Sys2Proof/Certificates/Slice0/Obligations.lean ====
section
/-! DEFINITION. The statements for the provers. Each docstring names the rule of spec/ it formalises. The helper
definitions under `Sys2Proof.Claims` write the spec's rules a second time, without the model's operations, so
that a statement can disagree with the model. -/

namespace Sys2Proof.Claims

open Sys2Proof.Machine

/-- The machine after a command that changes no register of the context: one response with this code and payload
(R52), the transient state zero (R111). -/
def answered (s : State) (code : Byte) (pay : List Byte) : State :=
  { s with
    tmp := Transient.zero
    rsps := s.rsps ++ [code :: BitVec.ofNat 8 pay.length :: 0 :: 0 :: pay] }

/-- The machine after a command that leaves the context `c` (R52, R111). -/
def finished (s : State) (c : Context) (pay : List Byte) : State :=
  { answered s 0 pay with ctx := c }

/-- The counter as the 128-bit number it is (R12). -/
def count (c : Context) : Nat := c.t0.toNat + 2 ^ 64 * c.t1.toNat

/-- The context with the counter at `n` modulo `2^128` (R12). -/
def withCount (c : Context) (n : Nat) : Context :=
  { c with t0 := BitVec.ofNat 64 n, t1 := BitVec.ofNat 64 (n / 2 ^ 64) }

/-- The little-endian word at offset `8i` of 64 bytes, as a sum (R32, R91). -/
def wordAt (P : Bytes 64) (i : Fin 8) : Word :=
  BitVec.ofNat 64 (((List.finRange 8).map fun k => P[8 * i.val + k.val].toNat * 2 ^ (8 * k.val)).sum)

/-- `m[k]`: the little-endian word at offset `8k` of a block, as a sum (R124, R73). -/
def messageWordAt (block : Bytes 128) (k : Fin 16) : Word :=
  BitVec.ofNat 64 (((List.finRange 8).map fun j => block[8 * k.val + j.val].toNat * 2 ^ (8 * j.val)).sum)

/-- Byte `k` of the little-endian serialization of eight words (R108). -/
def digestByte (h : Vector Word 8) (k : Nat) : Byte := (h.getD (k / 8) 0).extractLsb' (8 * (k % 8)) 8

/-- The flush of the rule of `ABSORB`: the counter goes up by 128 before the compression, and the buffer keeps
its bytes (R104, R165). -/
def flushed (c : Context) : Context :=
  let c1 := withCount c (count c + 128)
  { c1 with h := transformF c.h c.buf c1.t0 c1.t1 c.f0 c.f1, buflen := 0 }

/-- `ABSORB(b)` on a context with `buflen <= 128` (R104). -/
def absorbed (c : Context) (b : Byte) : Context :=
  let c1 := if c.buflen.toNat = 128 then flushed c else c
  { c1 with
    buf := Vector.ofFn fun i => if i.val = c1.buflen.toNat then b else c1.buf[i]
    buflen := BitVec.ofNat 8 (c1.buflen.toNat + 1) }

/-- The 64 bytes `PBUILD` answers: the layout of R90. -/
def blockBytes (dl kl : Byte) (salt pers : Option (Bytes 16)) : List Byte :=
  [dl, kl, 1, 1] ++ List.replicate 28 0 ++ (salt.elim (List.replicate 16 0) Vector.toList)
    ++ (pers.elim (List.replicate 16 0) Vector.toList)

/-- The bits of a header that must be zero, byte by byte (R53, R54). -/
def reservedClear (k0 k1 k2 k3 : Byte) : Prop :=
  (k0 = 0x01 ∧ (k1 = 0 ∨ k1 = 1) ∧ k2 = 0 ∧ k3 = 0) ∨
  (k0 = 0x02 ∧ k2 = 0 ∧ k3 = 0) ∨
  (k0 = 0x03 ∧ k1 = 0 ∧ k2 = 0 ∧ k3 = 0) ∨
  (k0 = 0x04 ∧ k2 = 0 ∧ k3 = 0) ∨
  (k0 = 0x05 ∧ k1 = 0 ∧ k2 = 0 ∧ k3 = 0) ∨
  (k0 = 0x10 ∧ k3.toNat < 4) ∨
  (k0 = 0x11 ∧ k1 = 0 ∧ k2 = 0 ∧ k3 = 0)

/-- The payload length is one R55 allows for the opcode `k0`, whose flag byte is `k3`. -/
def lengthAllowed (k0 k3 : Byte) (n : Nat) : Prop :=
  (k0 = 0x01 → n = 64) ∧ (k0 = 0x04 → n = 0) ∧ (k0 = 0x05 → n = 0) ∧
  (k0 = 0x10 → n = 16 * (k3.toNat % 2) + 16 * (k3.toNat / 2 % 2)) ∧ (k0 = 0x11 → n = 224)

/-- `OPC` is an opcode of the map (R54, R56 test 2). -/
def knownOpcode (k0 : Byte) : Prop := k0 ∈ ([0x01, 0x02, 0x03, 0x04, 0x05, 0x10, 0x11] : List Byte)

/-- The status a command answers in a phase with an output length: the first condition that holds, in the order
of R142, with the conditions and codes of R140. -/
def statusOf (i : Instr) (phase : Phase) (outlen : Byte) : Byte :=
  match i with
  | .init _ P =>
    if P[0].toNat = 0 ∨ 64 < P[0].toNat then 0x01 else if 64 < P[1].toNat then 0x02 else 0x00
  | .initKeyed n key =>
    if n.toNat = 0 ∨ 64 < n.toNat then 0x04
    else if key.length = 0 ∨ 64 < key.length then 0x03 else 0x00
  | .update _ => if phase = .idle then 0x07 else if phase = .finalized then 0x06 else 0x00
  | .final cap =>
    if phase = .idle then 0x07 else if phase = .finalized then 0x06
    else if cap.toNat < outlen.toNat then 0x05 else 0x00
  | .wipe => 0x00
  | .pbuild dl kl _ _ =>
    if dl.toNat = 0 ∨ 64 < dl.toNat then 0x01 else if 64 < kl.toNat then 0x02 else 0x00
  | .compress _ _ _ _ _ _ => 0x00

/-- The phase after a command that succeeds, by the table of R100. -/
def phaseAfter (i : Instr) (phase : Phase) : Phase :=
  match i with
  | .init _ _ => .fresh
  | .initKeyed _ _ => .fresh
  | .update _ => .absorbing
  | .final _ => .finalized
  | .wipe => .idle
  | .pbuild _ _ _ _ => phase
  | .compress _ _ _ _ _ _ => phase

/-- Four words processed side by side, one per lane (R128). -/
abbrev Lanes := Vector Word 4

/-- A lane-wise operation. -/
def lanes2 (f : Word → Word → Word) (a b : Lanes) : Lanes := Vector.ofFn fun i => f a[i] b[i]

/-- Lane `i` takes the word of lane `i + n mod 4`. -/
def turn (n : Nat) (a : Lanes) : Lanes := Vector.ofFn fun i => a[(i.val + n) % 4]'(Nat.mod_lt _ (by decide))

/-- Every lane rotated right. -/
def rotLanes (n : Nat) (a : Lanes) : Lanes := Vector.ofFn fun i => a[i].rotateRight n

/-- `G` on four lanes at once (R122, R128). -/
def gLanes (r : Lanes × Lanes × Lanes × Lanes) (x y : Lanes) : Lanes × Lanes × Lanes × Lanes :=
  let (a, b, c, d) := r
  let a := lanes2 (· + ·) (lanes2 (· + ·) a b) x
  let d := rotLanes 32 (lanes2 (· ^^^ ·) d a)
  let c := lanes2 (· + ·) c d
  let b := rotLanes 24 (lanes2 (· ^^^ ·) b c)
  let a := lanes2 (· + ·) (lanes2 (· + ·) a b) y
  let d := rotLanes 16 (lanes2 (· ^^^ ·) d a)
  let c := lanes2 (· + ·) c d
  let b := rotLanes 63 (lanes2 (· ^^^ ·) b c)
  (a, b, c, d)

/-- The four message words a group of calls takes: entries `o, o+2, o+4, o+6` of row `r` of `SIGMA` (R123). -/
def gather (m : Vector Word 16) (r : Fin 12) (o : Nat) (h : o + 6 < 16) : Lanes :=
  Vector.ofFn fun i => m[sigma[r][o + 2 * i.val]'(by omega)]

/-- One round in two lane-wise calls: the columns, then the diagonals brought into columns and back (R126). -/
def laneRound (m : Vector Word 16) (rows : Lanes × Lanes × Lanes × Lanes) (r : Fin 12) :
    Lanes × Lanes × Lanes × Lanes :=
  let (a, b, c, d) := gLanes rows (gather m r 0 (by decide)) (gather m r 1 (by decide))
  let (a, b, c, d) :=
    gLanes (a, turn 1 b, turn 2 c, turn 3 d) (gather m r 8 (by decide)) (gather m r 9 (by decide))
  (a, turn 3 b, turn 2 c, turn 1 d)

/-- The transform of the message words `m` computed on rows of four lanes: a vector-accelerated variant (R128). -/
def laneRounds (hin : Vector Word 8) (m : Vector Word 16) (t0 t1 f0 f1 : Word) : Vector Word 8 :=
  let (ra, rb, rc, rd) := (List.finRange 12).foldl (laneRound m)
    (⟨#[hin[0], hin[1], hin[2], hin[3]], rfl⟩, ⟨#[hin[4], hin[5], hin[6], hin[7]], rfl⟩,
      ⟨#[iv[0], iv[1], iv[2], iv[3]], rfl⟩,
      ⟨#[iv[4] ^^^ t0, iv[5] ^^^ t1, iv[6] ^^^ f0, iv[7] ^^^ f1], rfl⟩)
  Vector.ofFn fun i =>
    if h : i.val < 4 then hin[i] ^^^ ra[i.val] ^^^ rc[i.val]
    else hin[i] ^^^ rb[i.val - 4] ^^^ rd[i.val - 4]

/-- The variant on a block: the message words are parsed here as sums of the block's bytes (R124), not by the
model's operation. -/
def laneTransform (hin : Vector Word 8) (block : Bytes 128) (t0 t1 f0 f1 : Word) : Vector Word 8 :=
  laneRounds hin (Vector.ofFn (messageWordAt block)) t0 t1 f0 f1

/-- The packet decodes to a command that writes the context in every phase (R100). -/
def restarts (K : List Byte) : Prop :=
  ∃ i, decode K = .ok i ∧ (i.opcode = .init ∨ i.opcode = .initKeyed ∨ i.opcode = .wipe)

/-- The machine with these command packets waiting. -/
def waiting (s : State) (Ks : List (List Byte)) : State := { s with cmds := Ks }

end Sys2Proof.Claims

open Sys2Proof Sys2Proof.Machine Sys2Proof.Claims

/-! ### Reset, fetch and decoding -/

/-- R24 and R160: after reset every register of the context and of the datapath is zero and the phase is Idle, and a
reset that arrives during a command abandons it: its packet has left the port, so it never runs, and no response is
sent. The clauses on the port (`cmds.tail`, so the packets behind stay, and `rsps` unchanged) are the model's choice,
log entry 7. -/
def Obligations.ResetZeroesEveryRegister : Prop :=
  ∀ s : State,
    s.assertReset.ctx = State.reset.ctx ∧ s.assertReset.tmp = State.reset.tmp ∧
    s.resetDuringCommand.ctx = State.reset.ctx ∧ s.resetDuringCommand.tmp = State.reset.tmp ∧
    s.resetDuringCommand.cmds = s.cmds.tail ∧ s.resetDuringCommand.rsps = s.rsps ∧ s.assertReset.ctx.phase = .idle ∧
    (∀ i : Fin 8, s.assertReset.ctx.h[i] = 0) ∧ s.assertReset.ctx.t0 = 0 ∧ s.assertReset.ctx.t1 = 0 ∧
    s.assertReset.ctx.f0 = 0 ∧ s.assertReset.ctx.f1 = 0 ∧ (∀ i : Fin 128, s.assertReset.ctx.buf[i] = 0) ∧
    s.assertReset.ctx.buflen = 0 ∧ s.assertReset.ctx.outlen = 0 ∧ s.assertReset.ctx.lastNode = false ∧
    (∀ i : Fin 16, s.assertReset.tmp.v[i] = 0 ∧ s.assertReset.tmp.m[i] = 0) ∧
    (∀ i : Fin 64, s.assertReset.tmp.scr[i] = 0 ∧ s.assertReset.tmp.pb[i] = 0) ∧
    (∀ i : Fin 128, s.assertReset.tmp.kb[i] = 0)

/-- R5, R38: when the oldest packet decodes to a command, the step is that command executed with the packet gone
from the port; nothing else is added around it. -/
def Obligations.StepRunsDecodedCommand : Prop :=
  ∀ (s : State) (K : List Byte) (rest : List (List Byte)) (i : Instr),
    s.cmds = K :: rest → decode K = .ok i → step s = exec i { s with cmds := rest }

/-- R56: the four tests of a malformed packet in their order, and the answer `IllegalCommand` that changes no
register. -/
def Obligations.MalformedPacketsAreRefused : Prop :=
  (∀ K : List Byte, decode K = .error .shortPacket ↔ K.length < 4) ∧
  (∀ (k0 k1 k2 k3 : Byte) (pay : List Byte),
    (decode (k0 :: k1 :: k2 :: k3 :: pay) = .error .reservedOpcode ↔ ¬ knownOpcode k0) ∧
    (decode (k0 :: k1 :: k2 :: k3 :: pay) = .error .reservedBits ↔
      knownOpcode k0 ∧ ¬ reservedClear k0 k1 k2 k3) ∧
    (decode (k0 :: k1 :: k2 :: k3 :: pay) = .error .payloadLength ↔
      reservedClear k0 k1 k2 k3 ∧ ¬ lengthAllowed k0 k3 pay.length)) ∧
  (∀ (s : State) (K : List Byte) (rest : List (List Byte)) (e : Malformed),
    s.cmds = K :: rest → decode K = .error e → step s = .next (answered { s with cmds := rest } 0x08 []))

/-- The model's choice, log entry 3: with no packet the engine waits; it "never acts on its own". -/
def Obligations.EngineWaitsWithoutPacket : Prop :=
  ∀ s : State, s.cmds = [] → step s = .next s

/-- The opcode map: a header that matches a row selects that command, with the operand bits of its row. -/
def Obligations.HeaderSelectsCommand : Prop :=
  ∀ (k0 k1 k2 k3 : Byte) (H : BitVec 32), H = k3 ++ k2 ++ k1 ++ k0 →
    (H &&& 0xFFFFFEFF = 0x00000001 → ∀ pb : Bytes 64,
      decode (k0 :: k1 :: k2 :: k3 :: pb.toList) = .ok (.init (H.getLsbD 8) pb)) ∧
    (H &&& 0xFFFF00FF = 0x00000002 → ∀ key : List Byte,
      decode (k0 :: k1 :: k2 :: k3 :: key) = .ok (.initKeyed k1 key)) ∧
    (H &&& 0xFFFFFFFF = 0x00000003 → ∀ data : List Byte,
      decode (k0 :: k1 :: k2 :: k3 :: data) = .ok (.update data)) ∧
    (H &&& 0xFFFF00FF = 0x00000004 → decode [k0, k1, k2, k3] = .ok (.final k1)) ∧
    (H &&& 0xFFFFFFFF = 0x00000005 → decode [k0, k1, k2, k3] = .ok .wipe) ∧
    (H &&& 0xFC0000FF = 0x00000010 → ∀ salt pers : Option (Bytes 16),
      salt.isSome = H.getLsbD 24 → pers.isSome = H.getLsbD 25 →
      decode (k0 :: k1 :: k2 :: k3 :: (salt.elim [] Vector.toList ++ pers.elim [] Vector.toList))
        = .ok (.pbuild k1 k2 salt pers)) ∧
    (H &&& 0xFFFFFFFF = 0x00000011 → ∀ (h : Bytes 64) (block : Bytes 128) (t0 t1 f0 f1 : Bytes 8),
      decode (k0 :: k1 :: k2 :: k3 :: (h.toList ++ block.toList ++ t0.toList ++ t1.toList ++ f0.toList
          ++ f1.toList))
        = .ok (.compress h block (load64 t0) (load64 t1) (load64 f0) (load64 f1)))

/-- Rows of the table asked of the decoder: every header word of a row, with the payload of zeros its row requires,
decodes to that row's command. -/
def Obligations.TableWordsDecodeToTheirRow : Prop :=
  ∀ (op : Opcode) (H : BitVec 32), H &&& op.mask = op.pattern →
    ∃ i, decodeTableWord 32 H.toNat = some i ∧ i.opcode = op

/-- Packets of the spec's encoding table (spec/95_test_vectors.md section 2.7) decode to the commands they
stand for. -/
def Obligations.WrittenPacketsDecode : Prop :=
  decode [0x10, 0x40, 0x00, 0x00] = .ok (.pbuild 64 0 none none) ∧
  decode (0x01 :: 0x01 :: 0x00 :: 0x00 :: List.replicate 64 0) = .ok (.init true (Vector.replicate 64 0)) ∧
  decode [0x02, 0x40, 0x00, 0x00, 0x6b] = .ok (.initKeyed 64 [0x6b]) ∧
  decode [0x03, 0x00, 0x00, 0x00, 0x61, 0x62, 0x63] = .ok (.update [0x61, 0x62, 0x63]) ∧
  decode [0x04, 0x40, 0x00, 0x00] = .ok (.final 64) ∧
  decode [0x05, 0x00, 0x00, 0x00] = .ok .wipe ∧
  decode [0x10, 0x40, 0x00, 0x04] = .error .reservedBits

/-- The encoder is a right inverse of the decoder: the packet of every command decodes to that command, with
every operand at every value. -/
def Obligations.DecodeEncodeAgree : Prop := ∀ i : Instr, decode (encode i) = .ok i

/-- The decoder is injective: a packet that decodes to a command is the one packet the encoder gives, so no bit of
a packet is ignored. -/
def Obligations.EncodeDecodeAgree : Prop :=
  ∀ (K : List Byte) (i : Instr), decode K = .ok i → encode i = K

/-- R50: the transport delivers a command's packet exactly when its payload is within `MAX_PAYLOAD`, and a wide
enough transport delivers every command of a fixed length. -/
def Obligations.TransportDeliversWithinMaxPayload : Prop :=
  ∀ (c : Config) (i : Instr) (s : State),
    (State.send c (encode i) s = if i.wf c then { s with cmds := s.cmds ++ [encode i] } else s) ∧
    (i.wf c = true ↔ ∀ m, c.maxPayload = some m → (encode i).length ≤ m + 4) ∧
    (c.wf = true → i.opcode ≠ .initKeyed → i.opcode ≠ .update → i.wf c = true)

/-! ### Codec and words -/

/-- R70 to R73: the loads are the little-endian sums. -/
def Obligations.LoadsAreLittleEndian : Prop :=
  (∀ B : Bytes 2, (load16 B).toNat = B[0].toNat + 2 ^ 8 * B[1].toNat) ∧
  (∀ B : Bytes 4, (load32 B).toNat =
    B[0].toNat + 2 ^ 8 * B[1].toNat + 2 ^ 16 * B[2].toNat + 2 ^ 24 * B[3].toNat) ∧
  (∀ B : Bytes 6, (load48 B).toNat = ((List.finRange 6).map fun k => B[k].toNat * 2 ^ (8 * k.val)).sum) ∧
  (∀ B : Bytes 8, (load64 B).toNat = ((List.finRange 8).map fun k => B[k].toNat * 2 ^ (8 * k.val)).sum)

/-- R74 to R77: byte `k` of a store is bits `8k+7` to `8k`. -/
def Obligations.StoresAreLittleEndian : Prop :=
  (∀ (x : BitVec 16) (k : Fin 2), (store16 x)[k] = x.extractLsb' (8 * k.val) 8) ∧
  (∀ (x : BitVec 32) (k : Fin 4), (store32 x)[k] = x.extractLsb' (8 * k.val) 8) ∧
  (∀ (x : BitVec 48) (k : Fin 6), (store48 x)[k] = x.extractLsb' (8 * k.val) 8) ∧
  (∀ (x : Word) (k : Fin 8), (store64 x)[k] = x.extractLsb' (8 * k.val) 8)

/-- The spec's inference that loads and stores are inverse bijections at every width. -/
def Obligations.CodecRoundTrips : Prop :=
  (∀ x, load16 (store16 x) = x) ∧ (∀ B, store16 (load16 B) = B) ∧
  (∀ x, load32 (store32 x) = x) ∧ (∀ B, store32 (load32 B) = B) ∧
  (∀ x, load48 (store48 x) = x) ∧ (∀ B, store48 (load48 B) = B) ∧
  (∀ x, load64 (store64 x) = x) ∧ (∀ B, store64 (load64 B) = B)

/-- R78, R79: bit `i` of a rotate is bit `i + c` modulo the width of the operand. -/
def Obligations.RotatesMoveBits : Prop :=
  (∀ (w : BitVec 32) (c i : Fin 32), (rotr32 w c).getLsbD i.val = w.getLsbD ((i.val + c.val) % 32)) ∧
  (∀ (w : Word) (c i : Fin 64), (rotr64 w c).getLsbD i.val = w.getLsbD ((i.val + c.val) % 64))

/-- R32: a read is the sum of the bytes at its offsets, a write sets exactly the bytes at its offsets. -/
def Obligations.ByteSpaceAccesses : Prop :=
  ∀ (N : Nat) (S : Bytes N) (a n : Nat) (h : a + n ≤ N),
    memRead S a n h = ((List.finRange n).map fun k => S[a + k.val].toNat * 2 ^ (8 * k.val)).sum ∧
    ∀ (x : Nat) (j : Fin N), (memWrite S a n x h)[j] =
      if a ≤ j.val ∧ j.val < a + n then BitVec.ofNat 8 (x / 2 ^ (8 * (j.val - a))) else S[j]

/-- The byte spaces' basic laws, derived from the same definition: a read after a write to the same place gives
the low bytes written, and a read of eight bytes is the two reads of four put together (the spec's mixed-width
view). -/
def Obligations.ReadAfterWriteAndMixedWidths : Prop :=
  ∀ (N : Nat) (S : Bytes N) (a n x : Nat) (h : a + n ≤ N),
    memRead (memWrite S a n x h) a n h = x % 2 ^ (8 * n) ∧
    ∀ h8 : a + 8 ≤ N,
      memRead S a 8 h8 = memRead S a 4 (by omega) + 2 ^ 32 * memRead S (a + 4) 4 (by omega)

/-! ### Counter and transform -/

/-- R101: `INC(n)` adds to the 128-bit counter modulo `2^128` and touches nothing else. -/
def Obligations.CounterAddsModulo : Prop :=
  ∀ (c : Context) (n : Word),
    count (c.inc n) = (count c + n.toNat) % 2 ^ 128 ∧
    c.inc n = withCount c (count c + n.toNat)

/-- R122: `G` on four different indices writes the four words of its eight assignments and no other. -/
def Obligations.MixingWritesFourWords : Prop :=
  ∀ (v : Vector Word 16) (q : Quad) (x y : Word), [q.a, q.b, q.c, q.d].Nodup →
    let a1 := v[q.a] + v[q.b] + x
    let d1 := (v[q.d] ^^^ a1).rotateRight 32
    let c1 := v[q.c] + d1
    let b1 := (v[q.b] ^^^ c1).rotateRight 24
    let a2 := a1 + b1 + y
    let d2 := (d1 ^^^ a2).rotateRight 16
    let c2 := c1 + d2
    let b2 := (b1 ^^^ c2).rotateRight 63
    (mixG v q x y)[q.a] = a2 ∧ (mixG v q x y)[q.b] = b2 ∧ (mixG v q x y)[q.c] = c2 ∧
    (mixG v q x y)[q.d] = d2 ∧
    ∀ j : Fin 16, j ∉ [q.a, q.b, q.c, q.d] → (mixG v q x y)[j] = v[j]

/-- The spec's inference about a round: the four column calls in any order give the same `v`, and so do the four
diagonal calls. -/
def Obligations.CallsOfAGroupCommute : Prop :=
  ∀ (m v : Vector Word 16) (r : Fin 12) (l : List (Fin 8)),
    (l.Perm [0, 1, 2, 3] → l.foldl (mixCall m r) v = [0, 1, 2, 3].foldl (mixCall m r) v) ∧
    (l.Perm [4, 5, 6, 7] → l.foldl (mixCall m r) v = [4, 5, 6, 7].foldl (mixCall m r) v)

/-- The transform computed on rows of four lanes, columns and diagonals each at once, with every message word
parsed from the block as the sum of its eight bytes, is the transform: what the spec says of accelerated variants, for
every input. -/
def Obligations.LaneVariantEqualsTransform : Prop :=
  ∀ (hin : Vector Word 8) (block : Bytes 128) (t0 t1 f0 f1 : Word),
    transformF hin block t0 t1 f0 f1 = laneTransform hin block t0 t1 f0 f1

/-! ### The commands -/

/-- R90, R92, R93: `PBUILD` answers the 64-byte block of the layout, or the first failing check; the context is
unchanged in every phase. -/
def Obligations.PbuildAnswersBlock : Prop :=
  ∀ (s : State) (dl kl : Byte) (salt pers : Option (Bytes 16)),
    decode (0x10 :: dl :: kl :: BitVec.ofNat 8 (salt.isSome.toNat + 2 * pers.isSome.toNat) ::
      (salt.elim [] Vector.toList ++ pers.elim [] Vector.toList)) = .ok (.pbuild dl kl salt pers) ∧
    exec (.pbuild dl kl salt pers) s =
      if dl.toNat = 0 ∨ 64 < dl.toNat then .next (answered s 0x01 [])
      else if 64 < kl.toNat then .next (answered s 0x02 [])
      else .next (answered s 0x00 (blockBytes dl kl salt pers))

/-- R102: `INIT` in every phase, with its two failures in order. -/
def Obligations.InitSeedsSession : Prop :=
  ∀ (s : State) (ln : Bool) (P : Bytes 64),
    decode (0x01 :: (if ln then 1 else 0) :: 0 :: 0 :: P.toList) = .ok (.init ln P) ∧
    exec (.init ln P) s =
      if P[0].toNat = 0 ∨ 64 < P[0].toNat then .next (answered s 0x01 [])
      else if 64 < P[1].toNat then .next (answered s 0x02 [])
      else .next (finished s
        { h := Vector.ofFn fun i => iv[i] ^^^ wordAt P i, t0 := 0, t1 := 0, f0 := 0, f1 := 0,
          buf := Vector.replicate 128 0, buflen := 0, outlen := P[0], lastNode := ln, phase := .fresh } [])

/-- R103: `INIT_KEYED` fails in its order, and else is `INIT` of the built block with `LN = 0` and the padded key
fed through `UPDATE`, with the phase left Fresh. -/
def Obligations.InitKeyedIsInitThenKeyBlock : Prop :=
  ∀ (s : State) (n : Byte) (key : List Byte),
    decode (0x02 :: n :: 0 :: 0 :: key) = .ok (.initKeyed n key) ∧
    ((n.toNat = 0 ∨ 64 < n.toNat) → exec (.initKeyed n key) s = .next (answered s 0x04 [])) ∧
    (¬ (n.toNat = 0 ∨ 64 < n.toNat) → (key.length = 0 ∨ 64 < key.length) →
      exec (.initKeyed n key) s = .next (answered s 0x03 [])) ∧
    (1 ≤ n.toNat → n.toNat ≤ 64 → 1 ≤ key.length → key.length ≤ 64 →
      ∃ (P : Bytes 64) (s1 s2 : State),
        P.toList = blockBytes n (BitVec.ofNat 8 key.length) none none ∧
        exec (.init false P) s = .next s1 ∧
        exec (.update (key ++ List.replicate (128 - key.length) 0)) s1 = .next s2 ∧
        exec (.initKeyed n key) s = .next (finished s { s2.ctx with phase := .fresh } []))

/-- The closed form of `INIT_KEYED` that the spec infers: no compression happens and the key block rests in the
full buffer. -/
def Obligations.InitKeyedClosedForm : Prop :=
  ∀ (s : State) (n : Byte) (key : List Byte),
    1 ≤ n.toNat → n.toNat ≤ 64 → 1 ≤ key.length → key.length ≤ 64 →
    exec (.initKeyed n key) s = .next (finished s
      { h := iv.set 0 (iv[0] ^^^ BitVec.ofNat 64 (0x01010000 + 0x100 * key.length + n.toNat)),
        t0 := 0, t1 := 0, f0 := 0, f1 := 0,
        buf := Vector.ofFn fun i => (key ++ List.replicate (128 - key.length) 0).getD i.val 0,
        buflen := 128, outlen := n, lastNode := false, phase := .fresh } [])

/-- R104, R105: `UPDATE` fails by phase, and else absorbs its bytes one by one in order, flushing a full buffer
only when a further byte arrives; after a byte, `buflen` is 1 to 128. -/
def Obligations.UpdateAbsorbsLazily : Prop :=
  ∀ (s : State) (data : List Byte),
    decode (0x03 :: 0 :: 0 :: 0 :: data) = .ok (.update data) ∧
    (s.ctx.phase = .idle → exec (.update data) s = .next (answered s 0x07 [])) ∧
    (s.ctx.phase = .finalized → exec (.update data) s = .next (answered s 0x06 [])) ∧
    (s.ctx.phase.isOpen = true → s.ctx.buflen.toNat ≤ 128 →
      exec (.update data) s =
        .next (finished s { data.foldl absorbed s.ctx with phase := .absorbing } []) ∧
      (data ≠ [] → 1 ≤ (data.foldl absorbed s.ctx).buflen.toNat ∧
        (data.foldl absorbed s.ctx).buflen.toNat ≤ 128))

/-- The spec's closed form of `UPDATE`: with `D` the valid bytes followed by the data and `c` the number of blocks of
`D` that are followed by a further byte, exactly these `c` blocks are compressed, in order, each at its own count;
the rest of `D` is left in the buffer, and the stale bytes are those of the last block flushed. -/
def Obligations.UpdateClosedForm : Prop :=
  ∀ (s : State) (data D : List Byte) (c : Nat),
    s.ctx.phase.isOpen = true → s.ctx.buflen.toNat ≤ 128 → s.ctx.f0 = 0 → s.ctx.f1 = 0 → data ≠ [] →
    D = s.ctx.buf.toList.take s.ctx.buflen.toNat ++ data → c = (D.length - 1) / 128 →
    ∃ t, exec (.update data) s = .next t ∧
      (t.ctx.h, count s.ctx + 128 * c, D.drop (128 * c)) = foldBlocks D.length s.ctx.h (count s.ctx) D ∧
      count t.ctx = (count s.ctx + 128 * c) % 2 ^ 128 ∧
      t.ctx.buflen.toNat = D.length - 128 * c ∧
      (∀ i : Fin 128, i.val < t.ctx.buflen.toNat → t.ctx.buf[i] = D.getD (128 * c + i.val) 0) ∧
      (∀ i : Fin 128, t.ctx.buflen.toNat ≤ i.val →
        t.ctx.buf[i] = if c = 0 then s.ctx.buf[i] else D.getD (128 * (c - 1) + i.val) 0)

/-- R106, R108: `FINAL` fails in its order, and else pads, sets the flags, counts the valid bytes, compresses, and
answers the first `outlen` bytes of the serialized chaining words. -/
def Obligations.FinalAnswersDigest : Prop :=
  ∀ (s : State) (cap : Byte),
    decode [0x04, cap, 0, 0] = .ok (.final cap) ∧
    (s.ctx.phase = .idle → exec (.final cap) s = .next (answered s 0x07 [])) ∧
    (s.ctx.phase = .finalized → exec (.final cap) s = .next (answered s 0x06 [])) ∧
    (s.ctx.phase.isOpen = true → cap.toNat < s.ctx.outlen.toNat →
      exec (.final cap) s = .next (answered s 0x05 [])) ∧
    (s.ctx.phase.isOpen = true → s.ctx.outlen.toNat ≤ cap.toNat → s.ctx.outlen.toNat ≤ 64 →
      s.ctx.buflen.toNat ≤ 128 →
      let c1 := withCount s.ctx (count s.ctx + s.ctx.buflen.toNat)
      let block : Bytes 128 := Vector.ofFn fun i => if i.val < s.ctx.buflen.toNat then s.ctx.buf[i] else 0
      let f1 := if s.ctx.lastNode then allOnes else s.ctx.f1
      let h := transformF s.ctx.h block c1.t0 c1.t1 allOnes f1
      exec (.final cap) s = .next (finished s
        { c1 with h := h, f0 := allOnes, f1 := f1, buf := block, phase := .finalized }
        ((List.range s.ctx.outlen.toNat).map (digestByte h))))

/-- R107: `WIPE` in every phase leaves the reset context, after which `UPDATE` and `FINAL` are refused. -/
def Obligations.WipeLeavesResetContext : Prop :=
  ∀ s : State,
    decode [0x05, 0, 0, 0] = .ok .wipe ∧
    exec .wipe s = .next (finished s State.reset.ctx []) ∧
    ∀ t, exec .wipe s = .next t → ∀ (data : List Byte) (cap : Byte),
      exec (.update data) t = .next (answered t 0x07 []) ∧
      exec (.final cap) t = .next (answered t 0x07 [])

/-- R127: `COMPRESS` in every phase answers the serialized transform of its operands; the context is unchanged. -/
def Obligations.CompressAnswersTransform : Prop :=
  ∀ (s : State) (hin : Bytes 64) (block : Bytes 128) (t0 t1 f0 f1 : Word),
    decode (0x11 :: 0 :: 0 :: 0 :: (hin.toList ++ block.toList ++ (store64 t0).toList ++ (store64 t1).toList
      ++ (store64 f0).toList ++ (store64 f1).toList)) = .ok (.compress hin block t0 t1 f0 f1) ∧
    exec (.compress hin block t0 t1 f0 f1) s = .next (answered s 0x00
      ((List.range 64).map
        (digestByte (transformF (Vector.ofFn fun i => wordAt hin i) block t0 t1 f0 f1))))

/-! ### Rules about every command -/

/-- R140, R142: the status of every command is the first failing condition in the order of priority, only codes 0 to
8 are ever answered, and an error response carries only its code. -/
def Obligations.StatusIsFirstFailingCheck : Prop :=
  ∀ (s : State) (K : List Byte) (rest : List (List Byte)), s.cmds = K :: rest →
    ∃ (t : State) (Q : List Byte), step s = .next t ∧ t.rsps = s.rsps ++ [Q] ∧
      (∀ e, decode K = .error e → Q.head? = some 0x08) ∧
      (∀ i, decode K = .ok i → Q.head? = some (statusOf i s.ctx.phase s.ctx.outlen)) ∧
      (Q.headD 0).toNat ≤ 8 ∧ (Q.headD 0 ≠ 0 → Q = [Q.headD 0, 0, 0, 0])

/-- R141: an error changes no register of the context, zeroes the transient state and answers no payload. -/
def Obligations.ErrorsChangeNoRegister : Prop :=
  ∀ (s t : State) (K : List Byte) (rest : List (List Byte)) (Q : List Byte),
    s.cmds = K :: rest → step s = .next t → t.rsps = s.rsps ++ [Q] → Q.headD 0 ≠ 0 →
    t.ctx = s.ctx ∧ t.tmp = Transient.zero ∧ t.cmds = rest ∧ Q = [Q.headD 0, 0, 0, 0]

/-- R52: every command packet, legal or not, produces exactly one response packet of the response format. -/
def Obligations.OneResponsePerPacket : Prop :=
  ∀ (s : State) (K : List Byte) (rest : List (List Byte)), s.cmds = K :: rest →
    ∃ (t : State) (st : Byte) (pay : List Byte), step s = .next t ∧
      t.rsps = s.rsps ++ [st :: BitVec.ofNat 8 pay.length :: 0 :: 0 :: pay] ∧ pay.length ≤ 64 ∧
      (st ≠ 0 → pay = [])

/-- R100: the phase after every command by the table, and an empty `UPDATE` changes the phase alone. -/
def Obligations.PhaseTransitions : Prop :=
  (∀ (i : Instr) (s : State), ∃ t, exec i s = .next t ∧
    t.ctx.phase =
      if statusOf i s.ctx.phase s.ctx.outlen = 0 then phaseAfter i s.ctx.phase else s.ctx.phase) ∧
  (∀ s : State, s.ctx.phase.isOpen = true →
    exec (.update []) s = .next (finished s { s.ctx with phase := .absorbing } []))

/-- The spec's inference that Fresh and Absorbing accept the same commands with the same responses and, but for the
phase itself, the same effects. -/
def Obligations.FreshAndAbsorbingActAlike : Prop :=
  ∀ (i : Instr) (s : State), s.ctx.phase = .fresh →
    ∃ t t', exec i s = .next t ∧ exec i { s with ctx := { s.ctx with phase := .absorbing } } = .next t' ∧
      t.rsps = t'.rsps ∧ t.ctx = { t'.ctx with phase := t.ctx.phase }

/-- What each command leaves unchanged when it answers: the port's waiting packets always; the whole context for
`PBUILD` and `COMPRESS`; the flags, `outlen` and `last_node` for `UPDATE`, and `h`, `t` and every byte of `buf` outside
the bytes stored when the data fit in the buffer; `buflen`, `outlen`, `last_node` and the valid bytes of `buf` for
`FINAL`. -/
def Obligations.CommandFrames : Prop :=
  ∀ (i : Instr) (s t : State), exec i s = .next t →
    t.cmds = s.cmds ∧ t.tmp = Transient.zero ∧
    (∀ dl kl salt pers, i = .pbuild dl kl salt pers → t.ctx = s.ctx) ∧
    (∀ h block t0 t1 f0 f1, i = .compress h block t0 t1 f0 f1 → t.ctx = s.ctx) ∧
    (∀ data, i = .update data →
      t.ctx.f0 = s.ctx.f0 ∧ t.ctx.f1 = s.ctx.f1 ∧ t.ctx.outlen = s.ctx.outlen ∧
      t.ctx.lastNode = s.ctx.lastNode ∧
      (s.ctx.buflen.toNat + data.length ≤ 128 →
        t.ctx.h = s.ctx.h ∧ t.ctx.t0 = s.ctx.t0 ∧ t.ctx.t1 = s.ctx.t1 ∧
        ∀ j : Fin 128, ¬ (s.ctx.buflen.toNat ≤ j.val ∧ j.val < s.ctx.buflen.toNat + data.length) →
          t.ctx.buf[j] = s.ctx.buf[j])) ∧
    (∀ cap, i = .final cap →
      t.ctx.buflen = s.ctx.buflen ∧ t.ctx.outlen = s.ctx.outlen ∧ t.ctx.lastNode = s.ctx.lastNode ∧
      ∀ j : Fin 128, j.val < s.ctx.buflen.toNat → t.ctx.buf[j] = s.ctx.buf[j])

/-- The engine has no traps: every step answers a next state, whatever the state and the packet. -/
def Obligations.EngineNeverStops : Prop := ∀ s : State, ∃ t, step s = .next t

/-! ### Invariants and whole-machine rules -/

/-- The invariants hold after reset. -/
def Obligations.InvariantHoldsAtReset : Prop := State.reset.Inv

/-- The invariants of the context, and the zero transient state, are kept by every step from every state that has
them. -/
def Obligations.StepKeepsInvariant : Prop :=
  ∀ s t : State, s.Inv → step s = .next t → t.Inv

/-- Once `FINAL` has succeeded nothing but `INIT`, `INIT_KEYED` and `WIPE` changes the context: along a whole run of other
packets the digest state, the counter and the flags are frozen. -/
def Obligations.FinalizedContextIsFrozen : Prop :=
  ∀ (n : Nat) (s t : State), s.ctx.phase = .finalized → (∀ K ∈ s.cmds, ¬ restarts K) →
    Host.Core.run Sys2Proof.core n s = .next t → t.ctx = s.ctx

/-- Commands take effect one at a time in the order sent, one response each in the same order, and a packet that
waits behind changes nothing of what comes before it. -/
def Obligations.CommandsRunInOrder : Prop :=
  ∀ (s : State) (Ks later : List (List Byte)),
    ∃ (t : State) (Qs : List (List Byte)), Host.Core.run Sys2Proof.core Ks.length (waiting s (Ks ++ later)) = .next t ∧
      Host.Core.run Sys2Proof.core Ks.length (waiting s Ks) = .next (waiting t []) ∧
      t.cmds = later ∧ Qs.length = Ks.length ∧ t.rsps = s.rsps ++ Qs

/-- No response depends on the stale bytes of the buffer, on what an idle or finalized context holds, on the
transient state, or on Fresh against Absorbing: two machines alike in the rest answer every packet alike and stay
alike. -/
def Obligations.ResponsesIgnoreHiddenState : Prop :=
  ∀ s t : State, s.Alike t → ∃ s' t', step s = .next s' ∧ step t = .next t' ∧ s'.Alike t'

/-- The same along whole runs: the host never sees a difference. -/
def Obligations.HiddenStateNeverReachesHost : Prop :=
  ∀ (n : Nat) (s t : State), s.Alike t →
    ∃ s' t', Host.Core.run Sys2Proof.core n s = .next s' ∧ Host.Core.run Sys2Proof.core n t = .next t' ∧
      s'.rsps = t'.rsps

/-- `UPDATE X` then `UPDATE Y` leaves the same context as `UPDATE (X ‖ Y)`, in every phase. -/
def Obligations.UpdatesCompose : Prop :=
  ∀ (s a b : State) (X Y : List Byte), exec (.update X) s = .next a → exec (.update Y) a = .next b →
    ∃ t, exec (.update (X ++ Y)) s = .next t ∧ t.ctx = b.ctx

/-- An `UPDATE` longer than `m` bytes is sent as consecutive pieces of at most `m` bytes that hold the data in order
(R60), and the pieces, run one after the other, leave the context that one `UPDATE` of all the data leaves (R109).
The lengths of the pieces are the model's choice, log entry 9, and no clause rests on them beyond the bound. -/
def Obligations.LongUpdateIsCutIntoPieces : Prop :=
  ∀ (m : Nat) (D : List Byte) (s : State), 1 ≤ m →
    ∃ Ps : List (List Byte), updatePieces m D = Ps.map Instr.update ∧ Ps.flatten = D ∧ (∀ P ∈ Ps, P.length ≤ m) ∧
      ∃ t u, Host.Core.run Sys2Proof.core Ps.length (waiting s (Ps.map fun P => encode (.update P))) = .next t ∧
        exec (.update D) s = .next u ∧ t.ctx = u.ctx

/-- Headline: from any state, a session of `INIT`, any splitting of a message into `UPDATE` packets, and `FINAL` answers
the digest of the message, a function of the parameter block, the last-node bit and the whole message alone. -/
def Obligations.SessionComputesDigest : Prop :=
  ∀ (s : State) (ln : Bool) (P : Bytes 64) (chunks : List (List Byte)) (cap : Byte),
    1 ≤ P[0].toNat → P[0].toNat ≤ 64 → P[1].toNat ≤ 64 → P[0].toNat ≤ cap.toNat →
    ∃ t, Host.Core.run Sys2Proof.core (chunks.length + 2)
        (waiting s (encode (.init ln P) :: chunks.map (fun X => encode (.update X)) ++ [encode (.final cap)]))
        = .next t ∧
      t.rsps = s.rsps ++ List.replicate (chunks.length + 1) [(0 : Byte), 0, 0, 0]
        ++ [(0 : Byte) :: P[0] :: 0 :: 0 :: messageDigest P ln chunks.flatten]

/-- Headline: a keyed session answers the digest of the padded key block followed by the message, under the block
with the key's length. -/
def Obligations.KeyedSessionComputesDigest : Prop :=
  ∀ (s : State) (n : Byte) (key : List Byte) (chunks : List (List Byte)) (cap : Byte) (P : Bytes 64),
    1 ≤ n.toNat → n.toNat ≤ 64 → 1 ≤ key.length → key.length ≤ 64 → n.toNat ≤ cap.toNat →
    P.toList = blockBytes n (BitVec.ofNat 8 key.length) none none →
    ∃ t, Host.Core.run Sys2Proof.core (chunks.length + 2)
        (waiting s (encode (.initKeyed n key) :: chunks.map (fun X => encode (.update X))
          ++ [encode (.final cap)])) = .next t ∧
      t.rsps = s.rsps ++ List.replicate (chunks.length + 1) [(0 : Byte), 0, 0, 0]
        ++ [(0 : Byte) :: n :: 0 :: 0 ::
          messageDigest P false (key ++ List.replicate (128 - key.length) 0 ++ chunks.flatten)]
end

