-- ==== Sys2Proof/Laws/Codec.lean ====
section
/-! SUPPORT. The codec and the byte spaces: the little-endian value of bytes and the bytes of a value, reading a
slice, and what one write does to every byte. -/

namespace Sys2Proof.Machine

theorem bytesToNat_lt (l : List Byte) : bytesToNat l < 256 ^ l.length := by
  induction l with
  | nil => simp [bytesToNat]
  | cons b bs ih =>
    have hb := b.isLt
    simp only [bytesToNat, List.length_cons, pow_succ]
    omega

/-- Storing and reading back gives the low `8n` bits (R82). -/
theorem bytesToNat_natToBytes (n x : Nat) : bytesToNat (natToBytes n x) = x % 256 ^ n := by
  induction n generalizing x with
  | zero => simp [natToBytes, bytesToNat, Nat.mod_one]
  | succ n ih =>
    simp only [natToBytes, bytesToNat, ih, BitVec.toNat_ofNat, pow_succ]
    exact (Nat.mod_mul (a := 256) (b := 256 ^ n)).symm.trans (by rw [Nat.mul_comm])

/-- Reading and storing back gives the bytes (R82). -/
theorem natToBytes_bytesToNat (l : List Byte) : natToBytes l.length (bytesToNat l) = l := by
  induction l with
  | nil => rfl
  | cons b bs ih =>
    have hb := b.isLt
    have hdiv : (b.toNat + 256 * bytesToNat bs) / 256 = bytesToNat bs := by omega
    have hmod : BitVec.ofNat 8 (b.toNat + 256 * bytesToNat bs) = b := by
      apply BitVec.eq_of_toNat_eq
      simp only [BitVec.toNat_ofNat]
      omega
    simp only [bytesToNat, List.length_cons, natToBytes, hdiv, hmod, ih]

/-- Byte `k` of a stored value. -/
theorem natToBytes_getElem (n x k : Nat) (h : k < (natToBytes n x).length) :
    (natToBytes n x)[k] = BitVec.ofNat 8 (x / 256 ^ k) := by
  induction n generalizing x k with
  | zero => simp [natToBytes] at h
  | succ n ih =>
    cases k with
    | zero => simp [natToBytes]
    | succ k =>
      simp only [natToBytes, List.getElem_cons_succ, ih]
      rw [Nat.div_div_eq_div_mul, pow_succ, Nat.mul_comm]

@[simp] theorem slice_toList (S : List Byte) (a n : Nat) (h : a + n ≤ S.length) :
    (slice S a n h).toList = (S.drop a).take n := rfl

@[simp] theorem slice_getElem (S : List Byte) (a n : Nat) (h : a + n ≤ S.length) (k : Nat) (hk : k < n) :
    (slice S a n h)[k] = S[a + k] := by
  have : (slice S a n h)[k] = ((S.drop a).take n)[k]'(by simp; omega) := rfl
  rw [this, List.getElem_take, List.getElem_drop]

/-- What one write does to every byte of its space. -/
@[simp] theorem memWrite_getElem {N : Nat} (S : Bytes N) (a n x : Nat) (h : a + n ≤ N) (j : Nat) (hj : j < N) :
    (memWrite S a n x h)[j] =
      if a ≤ j ∧ j < a + n then BitVec.ofNat 8 (x >>> (8 * (j - a))) else S[j] := by
  simp [memWrite]

end Sys2Proof.Machine
end

