-- ==== Sys2Proof/Laws/Decode.lean ====
section
/-! SUPPORT. The header word and the decoder: the fields of a header, the mask test byte by byte, the row an opcode
byte selects, and what decoding comes to once the row is known. -/

namespace Sys2Proof

open Machine

theorem headerWord_toNat (k0 k1 k2 k3 : Byte) : (headerWord k0 k1 k2 k3).toNat
    = k0.toNat + 256 * k1.toNat + 65536 * k2.toNat + 16777216 * k3.toNat := by
  simp only [headerWord, load32, bytesToNat, Vector.toList, BitVec.toNat_ofNat]
  have := k0.isLt
  have := k1.isLt
  have := k2.isLt
  have := k3.isLt
  rw [Nat.mod_eq_of_lt (by omega)]
  omega

/-- The four fields of a header are its four bytes (R51). -/
theorem headerWord_fields (k0 k1 k2 k3 : Byte) :
    fieldOPC (headerWord k0 k1 k2 k3) = k0 ∧ fieldA (headerWord k0 k1 k2 k3) = k1 ∧
    fieldB (headerWord k0 k1 k2 k3) = k2 ∧ fieldC (headerWord k0 k1 k2 k3) = k3 := by
  have := k0.isLt
  have := k1.isLt
  have := k2.isLt
  have := k3.isLt
  refine ⟨?_, ?_, ?_, ?_⟩ <;> apply BitVec.eq_of_toNat_eq <;>
    simp only [fieldOPC, fieldA, fieldB, fieldC, BitVec.extractLsb'_toNat, headerWord_toNat,
      Nat.shiftRight_eq_div_pow] <;> omega

theorem headerWord_of_fields (H : BitVec 32) :
    headerWord (fieldOPC H) (fieldA H) (fieldB H) (fieldC H) = H := by
  have := H.isLt
  apply BitVec.eq_of_toNat_eq
  simp only [headerWord_toNat, fieldOPC, fieldA, fieldB, fieldC, BitVec.extractLsb'_toNat,
    Nat.shiftRight_eq_div_pow]
  omega

theorem fields_and (x y : BitVec 32) :
    fieldOPC (x &&& y) = fieldOPC x &&& fieldOPC y ∧ fieldA (x &&& y) = fieldA x &&& fieldA y ∧
    fieldB (x &&& y) = fieldB x &&& fieldB y ∧ fieldC (x &&& y) = fieldC x &&& fieldC y := by
  simp only [fieldOPC, fieldA, fieldB, fieldC, BitVec.extractLsb'_and, and_self]

/-- Two headers are equal when their four fields are. -/
theorem header_ext_iff (x y : BitVec 32) : x = y ↔
    fieldOPC x = fieldOPC y ∧ fieldA x = fieldA y ∧ fieldB x = fieldB y ∧ fieldC x = fieldC y := by
  constructor
  · rintro rfl
    simp
  · rintro ⟨h0, h1, h2, h3⟩
    rw [← headerWord_of_fields x, ← headerWord_of_fields y, h0, h1, h2, h3]

/-- The mask test of a header, byte by byte (R54). -/
theorem headerWord_mask (k0 k1 k2 k3 : Byte) (m p : BitVec 32) : headerWord k0 k1 k2 k3 &&& m = p ↔
    k0 &&& fieldOPC m = fieldOPC p ∧ k1 &&& fieldA m = fieldA p ∧ k2 &&& fieldB m = fieldB p ∧
      k3 &&& fieldC m = fieldC p := by
  obtain ⟨h0, h1, h2, h3⟩ := headerWord_fields k0 k1 k2 k3
  obtain ⟨a0, a1, a2, a3⟩ := fields_and (headerWord k0 k1 k2 k3) m
  rw [header_ext_iff, a0, a1, a2, a3, h0, h1, h2, h3]

/-- The row an opcode byte selects (R54). -/
theorem opcodeOf_headerWord (k0 k1 k2 k3 : Byte) : opcodeOf (headerWord k0 k1 k2 k3) =
    if k0 = 0x01 then some .init else if k0 = 0x02 then some .initKeyed
    else if k0 = 0x03 then some .update else if k0 = 0x04 then some .final
    else if k0 = 0x05 then some .wipe else if k0 = 0x10 then some .pbuild
    else if k0 = 0x11 then some .compress else none := by
  unfold opcodeOf
  rw [(headerWord_fields k0 k1 k2 k3).1]
  clear k1 k2 k3
  revert k0
  decide +kernel

theorem opcodeOf_code (op : Opcode) (k1 k2 k3 : Byte) :
    opcodeOf (headerWord op.code k1 k2 k3) = some op := by
  rw [opcodeOf_headerWord]
  cases op <;> rfl

/-- Decoding once the row is known: the mask test, then the payload (R56). -/
theorem decode_of_opcodeOf {k0 k1 k2 k3 : Byte} {op : Opcode} (pay : List Byte)
    (h : opcodeOf (headerWord k0 k1 k2 k3) = some op) :
    decode (k0 :: k1 :: k2 :: k3 :: pay) =
      if headerWord k0 k1 k2 k3 &&& op.mask = op.pattern then
        decodePayload op (headerWord k0 k1 k2 k3) pay
      else .error .reservedBits := by
  simp only [decode, h]

theorem decode_of_mask {op : Opcode} {k1 k2 k3 : Byte} (pay : List Byte)
    (h : headerWord op.code k1 k2 k3 &&& op.mask = op.pattern) :
    decode (op.code :: k1 :: k2 :: k3 :: pay) = decodePayload op (headerWord op.code k1 k2 k3) pay := by
  rw [decode_of_opcodeOf pay (opcodeOf_code ..), if_pos h]

/-- A slice is the operand whose bytes lie there. -/
theorem slice_eq_of_bytes {S : List Byte} {a n : Nat} {h : a + n ≤ S.length} {B : Bytes n}
    (e : (S.drop a).take n = B.toList) : slice S a n h = B :=
  Vector.toList_inj.1 e

theorem encode_length (i : Instr) : (encode i).length = i.payloadLength + 4 := by
  cases i with
  | pbuild dl kl salt pers => cases salt <;> cases pers <;> simp [encode, packet, optionBytes, Instr.payloadLength]
  | _ => simp [encode, packet, Instr.payloadLength]

end Sys2Proof
end

