-- ==== Sys2Proof/Laws/State.lean ====
section
/-! SUPPORT. One lemma per field per update of the state, true by `rfl` (after unfolding the
update, where its body holds a whole register file), so that no later proof unfolds a record
update. -/

namespace Sys2Proof.Machine

/-! Updates of the whole machine. -/

@[simp] theorem State.respond_ctx (s : State) (st : Status) (p : List Byte) :
    (s.respond st p).ctx = s.ctx := rfl
@[simp] theorem State.respond_tmp (s : State) (st : Status) (p : List Byte) :
    (s.respond st p).tmp = Transient.zero := rfl
@[simp] theorem State.respond_cmds (s : State) (st : Status) (p : List Byte) :
    (s.respond st p).cmds = s.cmds := rfl
@[simp] theorem State.respond_rsps (s : State) (st : Status) (p : List Byte) :
    (s.respond st p).rsps = s.rsps ++ [responsePacket st p] := rfl

@[simp] theorem State.raise_ctx (s : State) (e : Status) : (s.raise e).ctx = s.ctx := rfl
@[simp] theorem State.raise_tmp (s : State) (e : Status) : (s.raise e).tmp = Transient.zero := rfl
@[simp] theorem State.raise_cmds (s : State) (e : Status) : (s.raise e).cmds = s.cmds := rfl
@[simp] theorem State.raise_rsps (s : State) (e : Status) :
    (s.raise e).rsps = s.rsps ++ [responsePacket e []] := rfl

@[simp] theorem State.setCtx_ctx (s : State) (c : Context) : (s.setCtx c).ctx = c := rfl
@[simp] theorem State.setCtx_tmp (s : State) (c : Context) : (s.setCtx c).tmp = s.tmp := rfl
@[simp] theorem State.setCtx_cmds (s : State) (c : Context) : (s.setCtx c).cmds = s.cmds := rfl
@[simp] theorem State.setCtx_rsps (s : State) (c : Context) : (s.setCtx c).rsps = s.rsps := rfl

@[simp] theorem State.setPhase_ctx (s : State) (p : Phase) :
    (s.setPhase p).ctx = { s.ctx with phase := p } := rfl
@[simp] theorem State.setPhase_tmp (s : State) (p : Phase) : (s.setPhase p).tmp = s.tmp := rfl
@[simp] theorem State.setPhase_cmds (s : State) (p : Phase) : (s.setPhase p).cmds = s.cmds := rfl
@[simp] theorem State.setPhase_rsps (s : State) (p : Phase) : (s.setPhase p).rsps = s.rsps := rfl

@[simp] theorem State.stageBlock_ctx (s : State) (P : Bytes 64) : (s.stageBlock P).ctx = s.ctx := rfl
@[simp] theorem State.stageBlock_tmp (s : State) (P : Bytes 64) :
    (s.stageBlock P).tmp = { s.tmp with pb := P } := rfl
@[simp] theorem State.stageBlock_cmds (s : State) (P : Bytes 64) : (s.stageBlock P).cmds = s.cmds := rfl
@[simp] theorem State.stageBlock_rsps (s : State) (P : Bytes 64) : (s.stageBlock P).rsps = s.rsps := rfl

@[simp] theorem State.stageKey_ctx (s : State) (k : List Byte) : (s.stageKey k).ctx = s.ctx := by
  unfold State.stageKey; rfl
@[simp] theorem State.stageKey_tmp (s : State) (k : List Byte) :
    (s.stageKey k).tmp = { s.tmp with kb := keyBlock k } := by
  unfold State.stageKey; rfl
@[simp] theorem State.stageKey_cmds (s : State) (k : List Byte) : (s.stageKey k).cmds = s.cmds := by
  unfold State.stageKey; rfl
@[simp] theorem State.stageKey_rsps (s : State) (k : List Byte) : (s.stageKey k).rsps = s.rsps := by
  unfold State.stageKey; rfl

@[simp] theorem State.seed_ctx (s : State) (ln : Bool) : (s.seed ln).ctx = s.ctx.seed s.tmp.pb ln := rfl
@[simp] theorem State.seed_tmp (s : State) (ln : Bool) : (s.seed ln).tmp = s.tmp := rfl
@[simp] theorem State.seed_cmds (s : State) (ln : Bool) : (s.seed ln).cmds = s.cmds := rfl
@[simp] theorem State.seed_rsps (s : State) (ln : Bool) : (s.seed ln).rsps = s.rsps := rfl

@[simp] theorem State.takePacket_ctx (s : State) : (s.takePacket).ctx = s.ctx := rfl
@[simp] theorem State.takePacket_tmp (s : State) : (s.takePacket).tmp = s.tmp := rfl
@[simp] theorem State.takePacket_cmds (s : State) : (s.takePacket).cmds = s.cmds.tail := rfl
@[simp] theorem State.takePacket_rsps (s : State) : (s.takePacket).rsps = s.rsps := rfl

@[simp] theorem State.offer_ctx (s : State) (K : List Byte) : (s.offer K).ctx = s.ctx := rfl
@[simp] theorem State.offer_tmp (s : State) (K : List Byte) : (s.offer K).tmp = s.tmp := rfl
@[simp] theorem State.offer_cmds (s : State) (K : List Byte) : (s.offer K).cmds = K :: s.cmds := rfl
@[simp] theorem State.offer_rsps (s : State) (K : List Byte) : (s.offer K).rsps = s.rsps := rfl

@[simp] theorem State.illegal_ctx (s : State) : (s.illegal).ctx = s.ctx := rfl
@[simp] theorem State.illegal_tmp (s : State) : (s.illegal).tmp = Transient.zero := rfl
@[simp] theorem State.illegal_cmds (s : State) : (s.illegal).cmds = s.cmds := rfl
@[simp] theorem State.illegal_rsps (s : State) :
    (s.illegal).rsps = s.rsps ++ [responsePacket .illegalCommand []] := rfl

@[simp] theorem State.writeScratch_ctx (s : State) : (s.writeScratch).ctx = s.ctx := by
  unfold State.writeScratch; rfl
@[simp] theorem State.writeScratch_tmp (s : State) :
    (s.writeScratch).tmp = { s.tmp with scr := writeWords s.tmp.scr s.ctx.h } := by
  unfold State.writeScratch; rfl
@[simp] theorem State.writeScratch_cmds (s : State) : (s.writeScratch).cmds = s.cmds := by
  unfold State.writeScratch; rfl
@[simp] theorem State.writeScratch_rsps (s : State) : (s.writeScratch).rsps = s.rsps := by
  unfold State.writeScratch; rfl

@[simp] theorem State.runRounds_ctx (s : State) (h : Vector Word 8) (B : Bytes 128) (t0 t1 f0 f1 : Word) :
    (s.runRounds h B t0 t1 f0 f1).ctx = s.ctx := by
  unfold State.runRounds; rfl
@[simp] theorem State.runRounds_v (s : State) (h : Vector Word 8) (B : Bytes 128) (t0 t1 f0 f1 : Word) :
    (s.runRounds h B t0 t1 f0 f1).tmp.v = mixRounds (messageWords B) (workingVector h t0 t1 f0 f1) := by
  unfold State.runRounds; rfl
@[simp] theorem State.runRounds_cmds (s : State) (h : Vector Word 8) (B : Bytes 128) (t0 t1 f0 f1 : Word) :
    (s.runRounds h B t0 t1 f0 f1).cmds = s.cmds := by
  unfold State.runRounds; rfl
@[simp] theorem State.runRounds_rsps (s : State) (h : Vector Word 8) (B : Bytes 128) (t0 t1 f0 f1 : Word) :
    (s.runRounds h B t0 t1 f0 f1).rsps = s.rsps := by
  unfold State.runRounds; rfl

/-! Updates of the context. -/

@[simp] theorem Context.inc_h (c : Context) (n : Word) : (c.inc n).h = c.h := rfl
@[simp] theorem Context.inc_t0 (c : Context) (n : Word) : (c.inc n).t0 = add64 c.t0 n := rfl
@[simp] theorem Context.inc_t1 (c : Context) (n : Word) :
    (c.inc n).t1 = if add64 c.t0 n < n then add64 c.t1 1 else c.t1 := rfl
@[simp] theorem Context.inc_f0 (c : Context) (n : Word) : (c.inc n).f0 = c.f0 := rfl
@[simp] theorem Context.inc_f1 (c : Context) (n : Word) : (c.inc n).f1 = c.f1 := rfl
@[simp] theorem Context.inc_buf (c : Context) (n : Word) : (c.inc n).buf = c.buf := rfl
@[simp] theorem Context.inc_buflen (c : Context) (n : Word) : (c.inc n).buflen = c.buflen := rfl
@[simp] theorem Context.inc_outlen (c : Context) (n : Word) : (c.inc n).outlen = c.outlen := rfl
@[simp] theorem Context.inc_lastNode (c : Context) (n : Word) : (c.inc n).lastNode = c.lastNode := rfl
@[simp] theorem Context.inc_phase (c : Context) (n : Word) : (c.inc n).phase = c.phase := rfl

@[simp] theorem Context.setFinalFlags_h (c : Context) : (c.setFinalFlags).h = c.h := rfl
@[simp] theorem Context.setFinalFlags_t0 (c : Context) : (c.setFinalFlags).t0 = c.t0 := rfl
@[simp] theorem Context.setFinalFlags_t1 (c : Context) : (c.setFinalFlags).t1 = c.t1 := rfl
@[simp] theorem Context.setFinalFlags_f0 (c : Context) : (c.setFinalFlags).f0 = allOnes := rfl
@[simp] theorem Context.setFinalFlags_f1 (c : Context) :
    (c.setFinalFlags).f1 = if c.lastNode then allOnes else c.f1 := rfl
@[simp] theorem Context.setFinalFlags_buf (c : Context) : (c.setFinalFlags).buf = c.buf := rfl
@[simp] theorem Context.setFinalFlags_buflen (c : Context) : (c.setFinalFlags).buflen = c.buflen := rfl
@[simp] theorem Context.setFinalFlags_outlen (c : Context) : (c.setFinalFlags).outlen = c.outlen := rfl
@[simp] theorem Context.setFinalFlags_lastNode (c : Context) : (c.setFinalFlags).lastNode = c.lastNode := rfl
@[simp] theorem Context.setFinalFlags_phase (c : Context) : (c.setFinalFlags).phase = c.phase := rfl

@[simp] theorem Context.clearFlags_h (c : Context) : (c.clearFlags).h = c.h := rfl
@[simp] theorem Context.clearFlags_t0 (c : Context) : (c.clearFlags).t0 = c.t0 := rfl
@[simp] theorem Context.clearFlags_t1 (c : Context) : (c.clearFlags).t1 = c.t1 := rfl
@[simp] theorem Context.clearFlags_f0 (c : Context) : (c.clearFlags).f0 = 0 := rfl
@[simp] theorem Context.clearFlags_f1 (c : Context) : (c.clearFlags).f1 = 0 := rfl
@[simp] theorem Context.clearFlags_buf (c : Context) : (c.clearFlags).buf = c.buf := rfl
@[simp] theorem Context.clearFlags_buflen (c : Context) : (c.clearFlags).buflen = c.buflen := rfl
@[simp] theorem Context.clearFlags_outlen (c : Context) : (c.clearFlags).outlen = c.outlen := rfl
@[simp] theorem Context.clearFlags_lastNode (c : Context) : (c.clearFlags).lastNode = c.lastNode := rfl
@[simp] theorem Context.clearFlags_phase (c : Context) : (c.clearFlags).phase = c.phase := rfl

@[simp] theorem Context.putByte_h (c : Context) (b : Byte) : (c.putByte b).h = c.h := by
  unfold Context.putByte; rfl
@[simp] theorem Context.putByte_t0 (c : Context) (b : Byte) : (c.putByte b).t0 = c.t0 := by
  unfold Context.putByte; rfl
@[simp] theorem Context.putByte_t1 (c : Context) (b : Byte) : (c.putByte b).t1 = c.t1 := by
  unfold Context.putByte; rfl
@[simp] theorem Context.putByte_f0 (c : Context) (b : Byte) : (c.putByte b).f0 = c.f0 := by
  unfold Context.putByte; rfl
@[simp] theorem Context.putByte_f1 (c : Context) (b : Byte) : (c.putByte b).f1 = c.f1 := by
  unfold Context.putByte; rfl
@[simp] theorem Context.putByte_buf (c : Context) (b : Byte) :
    (c.putByte b).buf = c.buf.setIfInBounds c.buflen.toNat b := by
  unfold Context.putByte; rfl
@[simp] theorem Context.putByte_buflen (c : Context) (b : Byte) : (c.putByte b).buflen = c.buflen + 1 := by
  unfold Context.putByte; rfl
@[simp] theorem Context.putByte_outlen (c : Context) (b : Byte) : (c.putByte b).outlen = c.outlen := by
  unfold Context.putByte; rfl
@[simp] theorem Context.putByte_lastNode (c : Context) (b : Byte) : (c.putByte b).lastNode = c.lastNode := by
  unfold Context.putByte; rfl
@[simp] theorem Context.putByte_phase (c : Context) (b : Byte) : (c.putByte b).phase = c.phase := by
  unfold Context.putByte; rfl

@[simp] theorem Context.padBuffer_h (c : Context) : (c.padBuffer).h = c.h := by
  unfold Context.padBuffer; rfl
@[simp] theorem Context.padBuffer_t0 (c : Context) : (c.padBuffer).t0 = c.t0 := by
  unfold Context.padBuffer; rfl
@[simp] theorem Context.padBuffer_t1 (c : Context) : (c.padBuffer).t1 = c.t1 := by
  unfold Context.padBuffer; rfl
@[simp] theorem Context.padBuffer_f0 (c : Context) : (c.padBuffer).f0 = c.f0 := by
  unfold Context.padBuffer; rfl
@[simp] theorem Context.padBuffer_f1 (c : Context) : (c.padBuffer).f1 = c.f1 := by
  unfold Context.padBuffer; rfl
@[simp] theorem Context.padBuffer_buf (c : Context) :
    (c.padBuffer).buf = Vector.ofFn fun i => if c.buflen.toNat ≤ i.val then 0 else c.buf[i] := by
  unfold Context.padBuffer; rfl
@[simp] theorem Context.padBuffer_buflen (c : Context) : (c.padBuffer).buflen = c.buflen := by
  unfold Context.padBuffer; rfl
@[simp] theorem Context.padBuffer_outlen (c : Context) : (c.padBuffer).outlen = c.outlen := by
  unfold Context.padBuffer; rfl
@[simp] theorem Context.padBuffer_lastNode (c : Context) : (c.padBuffer).lastNode = c.lastNode := by
  unfold Context.padBuffer; rfl
@[simp] theorem Context.padBuffer_phase (c : Context) : (c.padBuffer).phase = c.phase := by
  unfold Context.padBuffer; rfl

@[simp] theorem Context.seed_h (c : Context) (P : Bytes 64) (ln : Bool) :
    (c.seed P ln).h = Vector.ofFn fun i => iv[i] ^^^ (wordsOf P)[i] := by
  unfold Context.seed; rfl
@[simp] theorem Context.seed_t0 (c : Context) (P : Bytes 64) (ln : Bool) : (c.seed P ln).t0 = 0 := by
  unfold Context.seed; rfl
@[simp] theorem Context.seed_t1 (c : Context) (P : Bytes 64) (ln : Bool) : (c.seed P ln).t1 = 0 := by
  unfold Context.seed; rfl
@[simp] theorem Context.seed_f0 (c : Context) (P : Bytes 64) (ln : Bool) : (c.seed P ln).f0 = 0 := by
  unfold Context.seed; rfl
@[simp] theorem Context.seed_f1 (c : Context) (P : Bytes 64) (ln : Bool) : (c.seed P ln).f1 = 0 := by
  unfold Context.seed; rfl
@[simp] theorem Context.seed_buf (c : Context) (P : Bytes 64) (ln : Bool) :
    (c.seed P ln).buf = Vector.replicate 128 0 := by
  unfold Context.seed; rfl
@[simp] theorem Context.seed_buflen (c : Context) (P : Bytes 64) (ln : Bool) : (c.seed P ln).buflen = 0 := by
  unfold Context.seed; rfl
@[simp] theorem Context.seed_outlen (c : Context) (P : Bytes 64) (ln : Bool) :
    (c.seed P ln).outlen = P[0] := by
  unfold Context.seed; rfl
@[simp] theorem Context.seed_lastNode (c : Context) (P : Bytes 64) (ln : Bool) :
    (c.seed P ln).lastNode = ln := by
  unfold Context.seed; rfl
@[simp] theorem Context.seed_phase (c : Context) (P : Bytes 64) (ln : Bool) :
    (c.seed P ln).phase = .fresh := by
  unfold Context.seed; rfl

end Sys2Proof.Machine
end

