-- ==== Sys2Proof/Laws/Ops.lean ====
section
/-! SUPPORT. One lemma per shared operation that says everything it does: the response packet, running the
transform on the datapath, `ABSORB` and its fold, the last compression, serializing eight words, and one step. -/

namespace Sys2Proof.Machine

theorem Status.code_lt (st : Status) : st.code.toNat < 9 := by cases st <;> decide

/-- A response packet is the status, the payload's length, two zero bytes and the payload (R52). -/
theorem responsePacket_eq (st : Status) (pay : List Byte) (h : pay.length < 256) :
    responsePacket st pay = st.code :: BitVec.ofNat 8 pay.length :: 0 :: 0 :: pay := by
  have hc := st.code.isLt
  have hv : (st.code.setWidth 32 ||| (BitVec.ofNat 32 pay.length <<< 8) : BitVec 32).toNat
      = st.code.toNat + 256 * pay.length := by
    rw [BitVec.toNat_or, BitVec.toNat_setWidth, BitVec.toNat_shiftLeft, BitVec.toNat_ofNat,
      Nat.mod_eq_of_lt (by omega), Nat.mod_eq_of_lt (a := pay.length) (by omega), Nat.shiftLeft_eq,
      Nat.mod_eq_of_lt (by omega), Nat.or_comm, Nat.mul_comm pay.length]
    rw [Nat.add_comm, ← Nat.two_pow_add_eq_or_of_lt (i := 8) hc pay.length]
  unfold responsePacket store32
  simp only [hv, natToBytes]
  have h1 : BitVec.ofNat 8 (st.code.toNat + 256 * pay.length) = st.code := by
    apply BitVec.eq_of_toNat_eq
    simp only [BitVec.toNat_ofNat]
    omega
  have h2 : (st.code.toNat + 256 * pay.length) / 256 = pay.length := by omega
  have h3 : pay.length / 256 = 0 := by omega
  simp [h1, h2, h3]

@[simp] theorem responsePacket_nil (st : Status) : responsePacket st [] = [st.code, 0, 0, 0] :=
  responsePacket_eq st [] (by simp)

/-! The transform on the datapath. -/

@[simp] theorem State.compressBuffer_ctx (s : State) : s.compressBuffer.ctx =
    { s.ctx with h := transformF s.ctx.h s.ctx.buf s.ctx.t0 s.ctx.t1 s.ctx.f0 s.ctx.f1 } := by
  unfold State.compressBuffer transformF; simp

@[simp] theorem State.compressBuffer_cmds (s : State) : s.compressBuffer.cmds = s.cmds := by
  unfold State.compressBuffer; simp

@[simp] theorem State.compressBuffer_rsps (s : State) : s.compressBuffer.rsps = s.rsps := by
  unfold State.compressBuffer; simp

@[simp] theorem State.flush_ctx (s : State) : s.flush.ctx =
    { s.ctx.inc 128 with
      h := transformF s.ctx.h s.ctx.buf (s.ctx.inc 128).t0 (s.ctx.inc 128).t1 s.ctx.f0 s.ctx.f1
      buflen := 0 } := by
  unfold State.flush; simp

@[simp] theorem State.flush_cmds (s : State) : s.flush.cmds = s.cmds := by unfold State.flush; simp

@[simp] theorem State.flush_rsps (s : State) : s.flush.rsps = s.rsps := by unfold State.flush; simp

/-! `ABSORB` and its fold. -/

/-- What one byte does to the context: flush a full buffer, then put the byte (R104). -/
theorem State.absorb_ctx (s : State) (b : Byte) : (s.absorb b).ctx =
    Context.putByte (if s.ctx.buflen = 128 then s.flush.ctx else s.ctx) b := by
  unfold State.absorb
  split <;> simp

@[simp] theorem State.absorb_cmds (s : State) (b : Byte) : (s.absorb b).cmds = s.cmds := by
  unfold State.absorb
  split <;> simp

@[simp] theorem State.absorb_rsps (s : State) (b : Byte) : (s.absorb b).rsps = s.rsps := by
  unfold State.absorb
  split <;> simp

/-- One byte reads only the context. -/
theorem State.absorb_congr {s t : State} (h : s.ctx = t.ctx) (b : Byte) :
    (s.absorb b).ctx = (t.absorb b).ctx := by
  rw [State.absorb_ctx, State.absorb_ctx, State.flush_ctx, State.flush_ctx, h]

@[simp] theorem State.absorbAll_nil (s : State) : s.absorbAll [] = s := rfl

@[simp] theorem State.absorbAll_cons (s : State) (b : Byte) (D : List Byte) :
    s.absorbAll (b :: D) = (s.absorb b).absorbAll D := rfl

theorem State.absorbAll_append (s : State) (X Y : List Byte) :
    s.absorbAll (X ++ Y) = (s.absorbAll X).absorbAll Y := by
  simp [State.absorbAll, List.foldl_append]

@[simp] theorem State.absorbAll_cmds (s : State) (D : List Byte) : (s.absorbAll D).cmds = s.cmds := by
  induction D generalizing s with
  | nil => rfl
  | cons b D ih => simp [ih]

@[simp] theorem State.absorbAll_rsps (s : State) (D : List Byte) : (s.absorbAll D).rsps = s.rsps := by
  induction D generalizing s with
  | nil => rfl
  | cons b D ih => simp [ih]

/-- Absorbing reads only the context. -/
theorem State.absorbAll_congr {s t : State} (h : s.ctx = t.ctx) (D : List Byte) :
    (s.absorbAll D).ctx = (t.absorbAll D).ctx := by
  induction D generalizing s t with
  | nil => exact h
  | cons b D ih => exact ih (State.absorb_congr h b)

/-- A property of contexts that one byte keeps is kept by all bytes. -/
theorem State.absorbAll_induct {p : Context → Prop} (hstep : ∀ (s : State) (b : Byte), p s.ctx → p (s.absorb b).ctx)
    (s : State) (D : List Byte) (h : p s.ctx) : p (s.absorbAll D).ctx := by
  induction D generalizing s with
  | nil => exact h
  | cons b D ih => exact ih (s.absorb b) (hstep s b h)

/-- The registers no byte writes. -/
theorem State.absorbAll_frame (s : State) (D : List Byte) :
    (s.absorbAll D).ctx.f0 = s.ctx.f0 ∧ (s.absorbAll D).ctx.f1 = s.ctx.f1 ∧
    (s.absorbAll D).ctx.outlen = s.ctx.outlen ∧ (s.absorbAll D).ctx.lastNode = s.ctx.lastNode ∧
    (s.absorbAll D).ctx.phase = s.ctx.phase := by
  refine State.absorbAll_induct (p := fun c => c.f0 = s.ctx.f0 ∧ c.f1 = s.ctx.f1 ∧ c.outlen = s.ctx.outlen ∧
    c.lastNode = s.ctx.lastNode ∧ c.phase = s.ctx.phase) (fun u b hu => ?_) s D ⟨rfl, rfl, rfl, rfl, rfl⟩
  rw [State.absorb_ctx]
  split <;> simp [hu]

/-! `FINAL`'s last compression. -/

/-- The context after padding, flags, count and compression (R106). -/
theorem State.finish_ctx (s : State) : s.finish.ctx =
    let c := s.ctx.padBuffer.setFinalFlags.inc (s.ctx.buflen.setWidth 64)
    { c with h := transformF s.ctx.h c.buf c.t0 c.t1 c.f0 c.f1 } := by
  unfold State.finish; simp

@[simp] theorem State.finish_cmds (s : State) : s.finish.cmds = s.cmds := by unfold State.finish; simp

@[simp] theorem State.finish_rsps (s : State) : s.finish.rsps = s.rsps := by unfold State.finish; simp

/-! Serializing eight words. -/

/-- Byte `k` after the eight word writes: bits of word `k / 8` (R106, R108, R127). -/
theorem writeWords_getElem (S : Bytes 64) (h : Vector Word 8) (k : Nat) (hk : k < 64) :
    (writeWords S h)[k] = BitVec.ofNat 8 ((h[k / 8]'(by omega)).toNat >>> (8 * (k % 8))) := by
  have h8 : List.finRange 8 = [0, 1, 2, 3, 4, 5, 6, 7] := by decide
  unfold writeWords
  simp only [h8, List.foldl_cons, List.foldl_nil, memWrite_getElem]
  obtain ⟨q, r, hr, rfl⟩ : ∃ q r, r < 8 ∧ k = 8 * q + r := ⟨k / 8, k % 8, by omega, by omega⟩
  have hq : (8 * q + r) / 8 = q := by omega
  have hm : (8 * q + r) % 8 = r := by omega
  have hq8 : q < 8 := by omega
  simp only [hq, hm]
  interval_cases q <;> simp <;> grind

/-! One step. -/

/-- Everything a step can do: nothing without a packet, the refusal of a malformed one, or the decoded command. -/
theorem step_cases (s : State) :
    (s.cmds = [] ∧ step s = .next s) ∨
    (∃ K rest, s.cmds = K :: rest ∧
      ((∃ e, decode K = .error e ∧ step s = .next s.takePacket.illegal) ∨
       (∃ i, decode K = .ok i ∧ step s = exec i s.takePacket))) := by
  unfold step State.nextPacket
  cases hc : s.cmds with
  | nil => simp
  | cons K rest =>
    cases hd : decode K with
    | error e => simp [hd]
    | ok i => simp [hd]

end Sys2Proof.Machine
end

