-- ==== Sys2Proof/Laws/Exec.lean ====
section
/-! SUPPORT. What every command has in common: it reads the context alone, answers one response, and leaves the
packets that wait at the port. -/

namespace Sys2Proof.Machine

/-- The eight word writes leave nothing of what the space held. -/
theorem writeWords_congr (S T : Bytes 64) (h : Vector Word 8) : writeWords S h = writeWords T h := by
  apply Vector.ext
  intro k hk
  rw [writeWords_getElem, writeWords_getElem]

/-- A command reads the context and nothing else: it answers a next state whose context and whose one response are
the same in every machine with that context, and it leaves the port's waiting packets. -/
theorem exec_local (i : Instr) (d : Context) : ∃ (c : Context) (Q : List Byte), ∀ s : State, s.ctx = d →
    exec i s = .next { ctx := c, tmp := Transient.zero, cmds := s.cmds, rsps := s.rsps ++ [Q] } := by
  have hr : ∀ (s u : State) (st : Status) (pay : List Byte), u.cmds = s.cmds → u.rsps = s.rsps →
      u.respond st pay =
        { ctx := u.ctx, tmp := Transient.zero, cmds := s.cmds, rsps := s.rsps ++ [responsePacket st pay] } := by
    intro s u st pay h1 h2
    simp only [State.respond, h1, h2]
  have hraise : ∀ (s : State) (e : Status), s.ctx = d → s.raise e =
      { ctx := d, tmp := Transient.zero, cmds := s.cmds, rsps := s.rsps ++ [responsePacket e []] } := by
    intro s e h
    rw [State.raise, hr s s e [] rfl rfl, h]
  let z : State := { ctx := d, tmp := Transient.zero, cmds := [], rsps := [] }
  cases i with
  | init ln P =>
    simp only [exec, execInit]
    split
    · exact ⟨d, _, fun s h => by rw [hraise s _ h]⟩
    · split
      · exact ⟨d, _, fun s h => by rw [hraise s _ h]⟩
      · refine ⟨d.seed P ln, responsePacket .ok [], fun s h => ?_⟩
        rw [hr s ((s.stageBlock P).seed ln) .ok [] rfl rfl, ← h]; rfl
  | initKeyed n key =>
    simp only [exec, execInitKeyed]
    split
    · exact ⟨d, _, fun s h => by rw [hraise s _ h]⟩
    · split
      · exact ⟨d, _, fun s h => by rw [hraise s _ h]⟩
      · generalize buildBlock n (BitVec.ofNat 8 key.length) none none = B
        have hs : ∀ s : State, s.ctx = d →
            ∃ u : State, u = ((s.stageBlock B).seed false).stageKey key ∧ u.cmds = s.cmds ∧ u.rsps = s.rsps ∧ u.tmp.kb = keyBlock key ∧
              u.ctx = d.seed B false := by
          intro s h
          exact ⟨_, rfl, rfl, rfl, rfl, by simp only [State.stageKey, State.seed, State.stageBlock, State.setCtx, h]⟩
        obtain ⟨w, hw'⟩ := hs z rfl
        have hw := hw'.2.2.2.2
        refine ⟨{ (w.absorbAll (keyBlock key).toList).ctx with phase := .fresh }, responsePacket .ok [],
          fun s h => ?_⟩
        obtain ⟨u, hu, hc, hp, hk, hx⟩ := hs s h
        rw [← hu, hk, hr s ((u.absorbAll (keyBlock key).toList).setPhase .fresh) .ok []
          (by simp [State.setPhase, hc]) (by simp [State.setPhase, hp]),
          ← State.absorbAll_congr (hx.trans hw.symm)]
        simp only [State.setPhase, State.setCtx]
  | update data =>
    simp only [exec, execUpdate]
    cases hp : phaseCheck d.phase with
    | error e => exact ⟨d, responsePacket e [], fun s h => by rw [h, hp]; simp only [hraise s _ h]⟩
    | ok u =>
      refine ⟨{ (z.absorbAll data).ctx with phase := .absorbing }, responsePacket .ok [], fun s h => ?_⟩
      rw [h, hp, ← State.absorbAll_congr (s := s) (t := z) h data]
      simp only [hr s ((s.absorbAll data).setPhase .absorbing) .ok [] (by simp [State.setPhase])
        (by simp [State.setPhase])]
      rfl
  | final cap =>
    simp only [exec, execFinal]
    cases hp : phaseCheck d.phase with
    | error e => exact ⟨d, responsePacket e [], fun s h => by rw [h, hp]; simp only [hraise s _ h]⟩
    | ok u =>
      by_cases hc : cap < d.outlen
      · exact ⟨d, responsePacket .bufferTooSmall [], fun s h => by rw [h, hp]; simp only [hc, if_true, hraise s _ h]⟩
      · refine ⟨{ z.finish.ctx with phase := .finalized }, responsePacket .ok
          ((writeWords (Vector.replicate 64 0) z.finish.ctx.h).toList.take z.finish.ctx.outlen.toNat),
          fun s h => ?_⟩
        have hz : s.finish.ctx = z.finish.ctx := by rw [State.finish_ctx, State.finish_ctx, h]
        rw [h, hp]
        simp only [hc, if_false]
        rw [hr s (s.finish.writeScratch.setPhase .finalized) _ _ (by simp [State.setPhase, State.writeScratch])
          (by simp [State.setPhase, State.writeScratch])]
        have h1 : (s.finish.writeScratch.setPhase .finalized).tmp.scr
            = writeWords (Vector.replicate 64 0) z.finish.ctx.h := by
          rw [← hz]; exact writeWords_congr _ _ _
        have h2 : (s.finish.writeScratch.setPhase .finalized).ctx = { z.finish.ctx with phase := .finalized } := by
          rw [← hz]; rfl
        rw [h1, h2]
  | wipe =>
    refine ⟨Context.reset, responsePacket .ok [], fun s h => ?_⟩
    simp only [exec, execWipe]
    exact congrArg Host.Outcome.next (hr s (s.setCtx Context.reset) .ok [] rfl rfl)
  | pbuild dl kl salt pers =>
    simp only [exec, execPbuild]
    cases build dl kl salt pers with
    | error e => exact ⟨d, responsePacket e [], fun s h => by simp only [hraise s _ h]⟩
    | ok P =>
      refine ⟨d, responsePacket .ok P.toList, fun s h => ?_⟩
      simp only
      rw [hr s (s.stageBlock P) _ _ rfl rfl, ← h]; rfl
  | compress hin block t0 t1 f0 f1 =>
    refine ⟨d, responsePacket .ok (writeWords (Vector.replicate 64 0)
      (transformF (wordsOf hin) block t0 t1 f0 f1)).toList, fun s h => ?_⟩
    simp only [exec, execCompress]
    refine (congrArg Host.Outcome.next
      (hr s (s.runRounds (wordsOf hin) block t0 t1 f0 f1) .ok _ (by simp) (by simp))).trans ?_
    unfold transformF
    simp only [State.runRounds, h]

end Sys2Proof.Machine
end

