-- ==== Sys2Proof/Laws/Operands.lean ====
section
/-! SUPPORT. The operand forms: what writing a 16-byte field does to every byte of the block, the key block, and the
range checks. -/

namespace Sys2Proof.Machine

/-- What a field write does to every byte of its block (R93). -/
theorem writeField_getElem (S : Bytes 64) (a : Nat) (h : a + 16 ≤ 64) (B : Bytes 16) (j : Nat) (hj : j < 64) :
    (writeField S a h B)[j] = if h' : a ≤ j ∧ j < a + 16 then B[j - a]'(by omega) else S[j] := by
  have h16 : List.finRange 16 = [0, 1, 2, 3, 4, 5, 6, 7, 8, 9, 10, 11, 12, 13, 14, 15] := by decide
  unfold writeField
  simp only [h16, List.foldl_cons, List.foldl_nil, memWrite_getElem]
  by_cases hh : a ≤ j ∧ j < a + 16
  · obtain ⟨r, hr, rfl⟩ : ∃ r, r < 16 ∧ j = a + r := ⟨j - a, by omega, by omega⟩
    have : a + r - a = r := by omega
    simp only [this, dif_pos hh]
    interval_cases r <;> simp
  · rw [dif_neg hh]
    repeat rw [if_neg (by simp; omega)]

/-- An absent field leaves the block as it is (R93). -/
theorem writeOptionalField_getElem (S : Bytes 64) (a : Nat) (h : a + 16 ≤ 64) (B : Option (Bytes 16)) (j : Nat)
    (hj : j < 64) : (writeOptionalField S a h B)[j] =
      if a ≤ j ∧ j < a + 16 then (B.elim S[j] fun B => B.toList.getD (j - a) 0) else S[j] := by
  cases B with
  | none => simp [writeOptionalField]
  | some B =>
    simp only [writeOptionalField, writeField_getElem, Option.elim]
    split
    · rw [List.getD_eq_getElem _ _ (by simp; omega)]
      simp
    · rfl

/-- The bytes of the key block: the key, then zeros (R103). -/
theorem keyBlock_toList (key : List Byte) (h : key.length ≤ 64) :
    (keyBlock key).toList = key ++ List.replicate (128 - key.length) 0 := by
  apply List.ext_getElem
  · simp
    omega
  · intro i h1 h2
    simp only [Vector.length_toList] at h1
    simp only [keyBlock, Vector.getElem_toList, Vector.getElem_ofFn]
    by_cases hh : i < key.length
    · rw [List.getElem_append_left hh, List.getD_eq_getElem _ _ hh]
    · rw [List.getElem_append_right (by omega), List.getD_eq_default _ _ (by omega)]
      simp

theorem digestLengthOk_iff (n : Byte) : digestLengthOk n = true ↔ 1 ≤ n.toNat ∧ n.toNat ≤ 64 := by
  simp [digestLengthOk]

theorem keyLengthOk_iff (n : Byte) : keyLengthOk n = true ↔ n.toNat ≤ 64 := by simp [keyLengthOk]

theorem keyOk_iff (key : List Byte) : keyOk key = true ↔ 1 ≤ key.length ∧ key.length ≤ 64 := by
  simp only [keyOk, Bool.and_eq_true, decide_eq_true_eq]

end Sys2Proof.Machine
end

