-- ==== Sys2Proof/Laws/PerInstr.lean ====
section
/-! SUPPORT. Statements made of every command as syntax, one lemma per constructor. `Laws.EncodeRow`: the packet the
encoder gives has its row's opcode and fixed bits, and a payload of the length its row requires. -/

namespace Sys2Proof.Laws.EncodeRow

open Machine

/-- The packet of `i` is in the row of `i` (R54), with a payload of the length R55 requires. -/
def Statement (i : Instr) : Prop :=
  ∃ (k1 k2 k3 : Byte) (pay : List Byte), encode i = i.opcode.code :: k1 :: k2 :: k3 :: pay ∧
    headerWord i.opcode.code k1 k2 k3 &&& i.opcode.mask = i.opcode.pattern ∧
    pay.length = i.payloadLength ∧
    ∀ n, requiredLength i.opcode (headerWord i.opcode.code k1 k2 k3) = some n → pay.length = n

theorem init (ln : Bool) (pb : Bytes 64) : Statement (.init ln pb) := by
  refine ⟨if ln then 1 else 0, 0, 0, pb.toList, rfl, ?_, by simp [Instr.payloadLength], fun n h => ?_⟩
  · simp only [Instr.opcode]
    cases ln <;> decide +kernel
  · simp only [Instr.opcode, requiredLength, Option.some.injEq] at h
    simp [← h]

theorem initKeyed (outlen : Byte) (key : List Byte) : Statement (.initKeyed outlen key) := by
  refine ⟨outlen, 0, 0, key, rfl, ?_, rfl, fun n h => ?_⟩
  · simp only [Instr.opcode]
    clear key
    revert outlen
    decide +kernel
  · simp [Instr.opcode, requiredLength] at h

theorem update (data : List Byte) : Statement (.update data) := by
  refine ⟨0, 0, 0, data, rfl, by simp only [Instr.opcode]; decide +kernel, rfl, fun n h => ?_⟩
  simp [Instr.opcode, requiredLength] at h

theorem final (cap : Byte) : Statement (.final cap) := by
  refine ⟨cap, 0, 0, [], rfl, ?_, rfl, fun n h => ?_⟩
  · revert cap
    decide +kernel
  · simp only [Instr.opcode, requiredLength, Option.some.injEq] at h
    simp [← h]

theorem wipe : Statement .wipe := by
  refine ⟨0, 0, 0, [], rfl, by decide +kernel, rfl, fun n h => ?_⟩
  simp only [Instr.opcode, requiredLength, Option.some.injEq] at h
  simp [← h]

theorem pbuild (dl kl : Byte) (salt pers : Option (Bytes 16)) : Statement (.pbuild dl kl salt pers) := by
  refine ⟨dl, kl, presenceByte salt.isSome pers.isSome, optionBytes salt ++ optionBytes pers, rfl, ?_, ?_,
    fun n h => ?_⟩
  · rw [headerWord_mask]
    have hd : ∀ k : Byte, k &&& fieldA Opcode.pbuild.mask = fieldA Opcode.pbuild.pattern ∧
        k &&& fieldB Opcode.pbuild.mask = fieldB Opcode.pbuild.pattern := by decide +kernel
    have hc : ∀ a b : Bool, presenceByte a b &&& fieldC Opcode.pbuild.mask = fieldC Opcode.pbuild.pattern := by
      decide +kernel
    exact ⟨by simp only [Instr.opcode]; decide +kernel, (hd dl).1, (hd kl).2, hc _ _⟩
  · cases salt <;> cases pers <;> simp [optionBytes, Instr.payloadLength]
  · simp only [Instr.opcode, requiredLength, Option.some.injEq, bitHS, bitHP,
      (headerWord_fields _ _ _ _).2.2.2] at h
    rw [← h]
    cases salt <;> cases pers <;> simp [optionBytes, presenceByte]

theorem compress (h : Bytes 64) (block : Bytes 128) (t0 t1 f0 f1 : Word) :
    Statement (.compress h block t0 t1 f0 f1) := by
  refine ⟨0, 0, 0, _, rfl, by simp only [Instr.opcode]; decide +kernel, by simp [Instr.payloadLength], fun n hn => ?_⟩
  simp only [Instr.opcode, requiredLength, Option.some.injEq] at hn
  simp [← hn]

end Sys2Proof.Laws.EncodeRow
end

