-- ==== Sys2Proof/Laws/Transform.lean ====
section
/-! SUPPORT. The transform: what half a call of `G` leaves in every word of the working vector. -/

namespace Sys2Proof.Machine

/-- Half of `G` on four different indices: four words written, the others kept (R122). -/
theorem mixHalf_getElem (v : Vector Word 16) (a b c d : Fin 16) (x : Word) (r1 r2 : Fin 64)
    (hab : a.val ≠ b.val) (hac : a.val ≠ c.val) (had : a.val ≠ d.val) (hbc : b.val ≠ c.val)
    (hbd : b.val ≠ d.val) (hcd : c.val ≠ d.val) (a1 d1 c1 b1 : Word)
    (e1 : a1 = v[a] + v[b] + x) (e2 : d1 = rotr64 (v[d] ^^^ a1) r1) (e3 : c1 = v[c] + d1)
    (e4 : b1 = rotr64 (v[b] ^^^ c1) r2) (j : Fin 16) :
    (mixHalf v ⟨a, b, c, d⟩ x r1 r2)[j] =
      if j = a then a1 else if j = b then b1 else if j = c then c1 else if j = d then d1 else v[j] := by
  have ef : ∀ i j : Fin 16, (i = j) = (i.val = j.val) := fun i j => by rw [Fin.ext_iff]
  simp only [Fin.getElem_fin] at *
  subst e1
  simp only [mixHalf, Fin.getElem_fin, Vector.getElem_set, had, hac, hab, hcd.symm,
    hbc.symm, hbd.symm, if_true, if_false, add64]
  subst e2
  subst e3
  subst e4
  simp only [ef]
  grind

end Sys2Proof.Machine
end

