-- ==== Sys2Proof/Machine/Text.lean ====
section
/-! DEFINITION. The text form of commands and responses (spec/30_encoding.md R59): operands as `name=value`,
numbers decimal or hexadecimal, byte sequences as hexadecimal digit pairs, lowest offset first. -/

namespace Sys2Proof.Machine

/-- One lower-case hexadecimal digit. -/
def hexDigit (n : Nat) : Char :=
  if n < 10 then Char.ofNat (48 + n) else Char.ofNat (87 + n)

/-- A byte as a digit pair. -/
def byteDigits (b : Byte) : List Char := [hexDigit (b.toNat / 16), hexDigit (b.toNat % 16)]

/-- A byte sequence as digit pairs, lowest offset first. -/
def bytesText (B : List Byte) : String := String.ofList (B.flatMap byteDigits)

/-- The `n` low hexadecimal digits of a number, most significant first. -/
def hexDigits : Nat → Nat → List Char
  | 0, _ => []
  | n + 1, x => hexDigits n (x / 16) ++ [hexDigit (x % 16)]

/-- A `u64` operand in hexadecimal. -/
def wordText (w : Word) : String := "0x" ++ String.ofList (hexDigits 16 w.toNat)

/-- A one-byte operand in decimal. -/
def numberText (b : Byte) : String := toString b.toNat

/-- An optional operand of `PBUILD`. -/
def optionalText (name : String) : Option (Bytes 16) → String
  | none => ""
  | some B => ", " ++ name ++ "=" ++ bytesText B.toList

/-- A command as a line of text (R59). -/
def commandText : Instr → String
  | .init ln pb => "INIT ln=" ++ (if ln then "1" else "0") ++ ", pb=" ++ bytesText pb.toList
  | .initKeyed outlen key => "INIT_KEYED outlen=" ++ numberText outlen ++ ", key=" ++ bytesText key
  | .update data => "UPDATE data=" ++ bytesText data
  | .final cap => "FINAL cap=" ++ numberText cap
  | .wipe => "WIPE"
  | .pbuild dl kl salt pers =>
    "PBUILD dl=" ++ numberText dl ++ ", kl=" ++ numberText kl ++ optionalText "salt" salt
      ++ optionalText "pers" pers
  | .compress h block t0 t1 f0 f1 =>
    "COMPRESS h=" ++ bytesText h.toList ++ ", block=" ++ bytesText block.toList ++ ", t0=" ++ wordText t0
      ++ ", t1=" ++ wordText t1 ++ ", f0=" ++ wordText f0 ++ ", f1=" ++ wordText f1

/-- The name of a status in text (R59, R140). -/
def statusText : Status → String
  | .ok => "OK"
  | .invalidDigestLength => "InvalidDigestLength"
  | .invalidKeyLength => "InvalidKeyLength"
  | .invalidKey => "InvalidKey"
  | .invalidOutputLength => "InvalidOutputLength"
  | .bufferTooSmall => "BufferTooSmall"
  | .alreadyFinalized => "AlreadyFinalized"
  | .notInitialized => "NotInitialized"
  | .illegalCommand => "IllegalCommand"

/-- A response as text: `-> <StatusName>` or `-> OK <bytes>` (R59). -/
def responseText (st : Status) (pay : List Byte) : String :=
  "-> " ++ statusText st ++ (if pay.isEmpty then "" else " " ++ bytesText pay)

end Sys2Proof.Machine
end

