-- ==== Sys2Proof/Tests/Slice0.lean ====
section
/-! SUPPORT. Tests of the model against the spec's own vectors (spec/95_test_vectors.md; the section is named at each
test), and a witness for the hypotheses of every statement. Expected values are the spec's, not the model's. -/

namespace Sys2Proof.Tests

set_option Elab.async false

open Sys2Proof.Machine Sys2Proof.Claims

/-- A predicate of the next state; false where there is none. -/
def after (o : Host.Outcome State Fault Refusal) (p : State → Bool) : Bool :=
  match o with
  | .next t => p t
  | .fault _ => false
  | .refused _ => false

/-- `dl kl 01 01` and 60 zeros. -/
def block (dl kl : Byte) : Bytes 64 :=
  Vector.ofFn fun i => if i.val = 0 then dl else if i.val = 1 then kl else if i.val < 4 then 1 else 0

/-- The bytes `a, a+1, …, a+n-1`. -/
def bytesFrom (a n : Nat) : List Byte := (List.range' a n).map (BitVec.ofNat 8)

/-- The chaining words of a fresh unkeyed session with `outlen = 64`: vector F2's `hin`. -/
def hFresh : Vector Word 8 := ⟨#[0x6a09e667f2bdc948, 0xbb67ae8584caa73b, 0x3c6ef372fe94f82b, 0xa54ff53a5f1d36f1,
  0x510e527fade682d1, 0x9b05688c2b3e6c1f, 0x1f83d9abfb41bd6b, 0x5be0cd19137e2179], rfl⟩

/-- A state in a phase, with `outlen` and the first `n` bytes of the buffer `a, a+1, …`. -/
def sessionAt (phase : Phase) (outlen : Byte) (n : Nat) : State :=
  { State.reset with
    ctx :=
      { Context.reset with
        h := hFresh, phase := phase, outlen := outlen, buflen := BitVec.ofNat 8 n,
        buf := Vector.ofFn fun i => if i.val < n then BitVec.ofNat 8 i.val else 0 } }

/-- The state with one packet waiting. -/
def offered (s : State) (K : List Byte) : State := { s with cmds := [K] }

/-- The one response a step from `s` answers to the packet `K`. -/
def answers (s : State) (K Q : List Byte) : Bool :=
  after (step (offered s K)) fun t => t.rsps == [Q] && t.cmds.isEmpty

/-! ### Well-formed commands: the one check, refused by an ill-formed term (R50) -/

theorem test_wf_refuses_long_payload :
    Instr.wf ⟨some 224⟩ (.update (List.replicate 225 0)) = false ∧
    Instr.wf ⟨some 224⟩ (.update (List.replicate 224 0)) = true ∧
    Instr.wf Config.unbounded (.update (List.replicate 225 0)) = true ∧
    Config.wf ⟨some 223⟩ = false ∧ Config.wf ⟨some 224⟩ = true := by decide +kernel

/-! ### Encoding, section 2.7: words written out from the spec's table -/

theorem test_decode_pbuild : decode [0x10, 0x40, 0x00, 0x00] = .ok (.pbuild 64 0 none none) := by rfl

theorem test_decode_pbuild_salt_pers :
    decode ([0x10, 0x20, 0x00, 0x03] ++ bytesFrom 0 32) =
      .ok (.pbuild 32 0 (some ⟨⟨bytesFrom 0 16⟩, by rfl⟩) (some ⟨⟨bytesFrom 16 16⟩, by rfl⟩)) := by
  decide +kernel

theorem test_decode_pbuild_malformed :
    decode [0x10, 0x40, 0x00, 0x01] = .error .payloadLength ∧
    decode [0x10, 0x40, 0x00, 0x04] = .error .reservedBits := by decide +kernel

theorem test_decode_init :
    decode ([0x01, 0x01, 0x00, 0x00] ++ (block 64 0).toList) = .ok (.init true (block 64 0)) := by
  decide +kernel

theorem test_decode_init_malformed :
    decode ([0x01, 0x02, 0x00, 0x00] ++ List.replicate 64 0) = .error .reservedBits ∧
    decode ([0x01, 0x00, 0x00, 0x00] ++ List.replicate 63 0) = .error .payloadLength := by decide +kernel

theorem test_decode_initKeyed :
    decode ([0x02, 0x40, 0x00, 0x00] ++ bytesFrom 0 64) = .ok (.initKeyed 64 (bytesFrom 0 64)) := by
  decide +kernel

theorem test_decode_update :
    decode [0x03, 0x00, 0x00, 0x00] = .ok (.update []) ∧
    decode [0x03, 0x00, 0x00, 0x00, 0x61, 0x62] = .ok (.update [0x61, 0x62]) ∧
    decode [0x03, 0x01, 0x00, 0x00] = .error .reservedBits ∧
    decode [0x03, 0x00, 0x00] = .error .shortPacket := by decide +kernel

theorem test_decode_final :
    decode [0x04, 0x40, 0x00, 0x00] = .ok (.final 64) ∧
    decode [0x04, 0x40, 0x00, 0x00, 0x00] = .error .payloadLength := by decide +kernel

theorem test_decode_wipe : decode [0x05, 0x00, 0x00, 0x00] = .ok .wipe := by rfl

theorem test_decode_compress :
    decode ([0x11, 0x00, 0x00, 0x00] ++ bytesFrom 0 224) =
      .ok (.compress ⟨⟨bytesFrom 0 64⟩, by rfl⟩ ⟨⟨bytesFrom 64 128⟩, by rfl⟩ 0xc7c6c5c4c3c2c1c0
        0xcfcecdcccbcac9c8 0xd7d6d5d4d3d2d1d0 0xdfdedddcdbdad9d8) ∧
    decode ([0x11, 0x00, 0x00, 0x00] ++ bytesFrom 0 223) = .error .payloadLength := by decide +kernel

theorem test_decode_reserved :
    decode [0x00, 0x00, 0x00, 0x00] = .error .reservedOpcode ∧
    decode [0x06, 0x00, 0x00, 0x00] = .error .reservedOpcode ∧
    decode [0x0f, 0x00, 0x00, 0x00] = .error .reservedOpcode ∧
    decode [0x12, 0x00, 0x00, 0x00] = .error .reservedOpcode ∧
    decode [0xff, 0x00, 0x00, 0x00] = .error .reservedOpcode ∧
    decode [] = .error .shortPacket := by decide +kernel

/-- The seven rows as the table numbers their bits. -/
theorem test_table_words :
    decodeTableWord 32 0x101 = some (.init true (Vector.replicate 64 0)) ∧
    decodeTableWord 32 0x4002 = some (.initKeyed 64 []) ∧ decodeTableWord 32 3 = some (.update []) ∧
    decodeTableWord 32 0x4004 = some (.final 64) ∧ decodeTableWord 32 5 = some .wipe ∧
    decodeTableWord 32 0x4010 = some (.pbuild 64 0 none none) ∧
    decodeTableWord 32 0x11 = some (.compress (Vector.replicate 64 0) (Vector.replicate 128 0) 0 0 0 0) := by
  decide +kernel

/-! ### Codec, section 2.1 -/

theorem test_loads :
    load16 ⟨#[0x34, 0x12], rfl⟩ = 0x1234 ∧ load32 ⟨#[0x78, 0x56, 0x34, 0x12], rfl⟩ = 0x12345678 ∧
    load48 ⟨#[1, 2, 3, 4, 5, 6], rfl⟩ = 0x060504030201 ∧
    load64 ⟨#[1, 2, 3, 4, 5, 6, 7, 8], rfl⟩ = 0x0807060504030201 ∧
    load64 ⟨#[0, 0, 0, 0, 0, 0, 0, 0x80], rfl⟩ = 0x8000000000000000 := by decide +kernel

theorem test_stores :
    store16 0x1234 = ⟨#[0x34, 0x12], rfl⟩ ∧ store32 0x12345678 = ⟨#[0x78, 0x56, 0x34, 0x12], rfl⟩ ∧
    store48 0x060504030201 = ⟨#[1, 2, 3, 4, 5, 6], rfl⟩ ∧
    store64 0x6a09e667f2bdc948 = ⟨#[0x48, 0xc9, 0xbd, 0xf2, 0x67, 0xe6, 0x09, 0x6a], rfl⟩ := by
  decide +kernel

theorem test_rotates :
    rotr32 0x12345678 8 = 0x78123456 ∧ rotr32 1 1 = 0x80000000 ∧ rotr32 0x12345678 0 = 0x12345678 ∧
    rotr64 0x0123456789abcdef 32 = 0x89abcdef01234567 ∧ rotr64 0x0123456789abcdef 24 = 0xabcdef0123456789 ∧
    rotr64 0x0123456789abcdef 16 = 0xcdef0123456789ab ∧ rotr64 0x0123456789abcdef 63 = 0x02468acf13579bde ∧
    rotr64 0x8000000000000000 63 = 1 ∧ rotr64 0x0123456789abcdef 0 = 0x0123456789abcdef := by decide +kernel

theorem test_add64 : add64 allOnes 1 = 0 ∧ add64 0x8000000000000000 0x8000000000000000 = 0 := by
  decide +kernel

/-- A wide read of bytes written one by one, and a write that keeps its neighbours (R32, R36). -/
theorem test_byte_space :
    memRead (memWrite (memWrite (Vector.replicate 4 (0xff : Byte)) 1 1 0x34 (by decide)) 2 1 0x12 (by decide))
      0 4 (by decide) = 0xff1234ff := by decide +kernel

/-! ### Counter and transform, sections 2.2 to 2.4 -/

theorem test_counter :
    (let t := ({ Context.reset with t0 := 0xffffffffffffff80 }).inc 128; (t.t0, t.t1)) = (0, 1) ∧
    (let t := ({ Context.reset with t0 := 0xffffffffffffff81 }).inc 128; (t.t0, t.t1)) = (1, 1) ∧
    (let t := ({ Context.reset with t0 := allOnes, t1 := allOnes }).inc 1; (t.t0, t.t1)) = (0, 0) ∧
    (let t := ({ Context.reset with t0 := 0x80 }).inc 5; (t.t0, t.t1)) = (0x85, 0) := by decide +kernel

/-- The fifth and sixth rows of section 2.2. -/
theorem test_mix :
    (let v := mixG (Vector.replicate 16 allOnes) ⟨0, 4, 8, 12⟩ allOnes allOnes; [v[0], v[4], v[8], v[12], v[1]]) =
      [0x000000fffffffdfc, 0xfbf801fbfe0403fd, 0xfdfc000200fdfffe, 0xfdfc000000fdffff, allOnes] ∧
    (let v := mixG (workingVector hFresh 3 0 allOnes 0) ⟨0, 4, 8, 12⟩ 0x636261 0; [v[0], v[4], v[8], v[12]]) =
      [0xf0c9aa0f86491dea, 0xb7defc3d0277e11f, 0xee5e0f39647a9fff, 0x7772fc2886a76c5f] := by decide +kernel

/-- Vector F3 after round 0 and after round 11, four words of each. -/
theorem test_rounds :
    (let m := messageWords (padBlock [0x61, 0x62, 0x63])
     let v := mixRound m (workingVector hFresh 3 0 allOnes 0) 0
     let w := mixRounds m (workingVector hFresh 3 0 allOnes 0)
     [v[0], v[7], v[8], v[15], w[0], w[7], w[8], w[15]]) =
      [0x86b7c1568029bb79, 0x595cb8a9a1aca66c, 0xbec3ae837eac4887, 0x2318a24e2140fc64, 0x12ef8a641ec4f6d6,
       0x906a6ff19e573942, 0x75ab709bd3dcbf24, 0xe813a23c60af3b82] := by decide +kernel

/-- Vector F4: a high counter word, `f1` set, a full block. -/
theorem test_transform_f4 :
    transformF (Vector.ofFn fun i => BitVec.ofNat 64 (i.val + 1)) (Vector.ofFn fun k => BitVec.ofNat 8 k.val)
      0xffffffffffffff80 1 0 allOnes =
      ⟨#[0x529427e06e0055b0, 0x44972c78f06457f4, 0x301c56730684af50, 0x0b59e9094c73fee1, 0xe2ac9f05cc91a918,
        0x6c668f8d56d8def9, 0x88e3051a0a00042d, 0x3c3107640eb39daa], rfl⟩ := by decide +kernel

/-! ### Commands, sections 2.5, 2.6 and 3 -/

theorem test_pbuild :
    answers State.reset ([0x10, 0x20, 0x00, 0x03] ++ bytesFrom 0 32)
      ([0x00, 0x40, 0x00, 0x00, 0x20, 0x00, 0x01, 0x01] ++ List.replicate 28 0 ++ bytesFrom 0 32) = true := by
  decide +kernel

theorem test_pbuild_errors :
    answers State.reset [0x10, 0, 200, 0] [1, 0, 0, 0] = true ∧
    answers State.reset [0x10, 65, 0, 0] [1, 0, 0, 0] = true ∧
    answers State.reset [0x10, 64, 65, 0] [2, 0, 0, 0] = true := by decide +kernel

/-- P1 line 2. -/
theorem test_init :
    after (exec (.init false (block 64 0)) (sessionAt .finalized 1 7)) (fun t =>
      t.ctx == (sessionAt .fresh 64 0).ctx && t.rsps == [[0, 0, 0, 0]]) = true := by decide +kernel

theorem test_init_errors :
    after (exec (.init false (block 0 0)) State.reset) (fun t =>
      t.ctx == Context.reset && t.rsps == [[1, 0, 0, 0]]) = true ∧
    after (exec (.init false (block 64 65)) State.reset) (fun t =>
      t.ctx == Context.reset && t.rsps == [[2, 0, 0, 0]]) = true := by decide +kernel

/-- P2 line 1. -/
theorem test_initKeyed :
    after (exec (.initKeyed 64 (bytesFrom 0 64)) State.reset) (fun t =>
      t.ctx.h == hFresh.set 0 0x6a09e667f2bd8948 && t.ctx.phase == .fresh && t.ctx.buflen == 128 &&
      t.ctx.buf.toList == bytesFrom 0 64 ++ List.replicate 64 0 && t.ctx.t0 == 0 && t.ctx.outlen == 64) = true := by
  decide +kernel

theorem test_initKeyed_errors :
    answers State.reset [0x02, 65, 0, 0, 1] [4, 0, 0, 0] = true ∧
    answers State.reset [0x02, 0, 0, 0] [4, 0, 0, 0] = true ∧
    answers State.reset [0x02, 64, 0, 0] [3, 0, 0, 0] = true ∧
    answers State.reset ([0x02, 64, 0, 0] ++ List.replicate 65 0) [3, 0, 0, 0] = true := by decide +kernel

/-- P3 line 3: the 129th byte flushes the full buffer and leaves stale bytes behind. -/
theorem test_update_flushes :
    after (exec (.update [0x80]) (sessionAt .absorbing 64 128)) (fun t =>
      t.ctx.h[0] == 0xffa0852a267eb85a && t.ctx.h[7] == 0xe96b7e8825d0f5a7 && t.ctx.t0 == 128 &&
      t.ctx.buflen == 1 && t.ctx.buf.toList == 0x80 :: bytesFrom 1 127) = true := by decide +kernel

/-- P3 line 2: a buffer that just becomes full is not flushed. -/
theorem test_update_is_lazy :
    after (exec (.update (bytesFrom 0 128)) (sessionAt .fresh 64 0)) (fun t =>
      t.ctx == (sessionAt .absorbing 64 128).ctx) = true := by decide +kernel

/-- P1 line 4. -/
theorem test_final :
    after (exec (.final 64) { sessionAt .absorbing 64 0 with
      ctx := { (sessionAt .absorbing 64 0).ctx with buflen := 3, buf := padBlock [0x61, 0x62, 0x63] } }) (fun t =>
      t.ctx.h[0] == 0x0d4d1c983fa580ba && t.ctx.t0 == 3 && t.ctx.f0 == allOnes && t.ctx.f1 == 0 &&
      t.ctx.phase == .finalized && t.ctx.buflen == 3 &&
      (t.rsps.headD []).take 12 == [0, 64, 0, 0, 0xba, 0x80, 0xa5, 0x3f, 0x98, 0x1c, 0x4d, 0x0d] &&
      (t.rsps.headD []).length == 68) = true := by decide +kernel

/-- The phase and capacity refusals of section 2.6. -/
theorem test_final_errors :
    answers State.reset [0x04, 64, 0, 0] [7, 0, 0, 0] = true ∧
    answers (sessionAt .fresh 64 0) [0x04, 63, 0, 0] [5, 0, 0, 0] = true ∧
    answers (sessionAt .finalized 64 0) [0x04, 0, 0, 0] [6, 0, 0, 0] = true := by decide +kernel

theorem test_wipe :
    after (exec .wipe (sessionAt .finalized 64 9)) (fun t =>
      t.ctx == Context.reset && t.rsps == [[0, 0, 0, 0]]) = true := by decide +kernel

theorem test_update_errors :
    answers State.reset [0x03, 0, 0, 0, 1] [7, 0, 0, 0] = true ∧
    answers (sessionAt .finalized 64 0) [0x03, 0, 0, 0] [6, 0, 0, 0] = true ∧
    answers (sessionAt .fresh 64 0) [0x03, 0, 0, 0] [0, 0, 0, 0] = true := by decide +kernel

/-- P4 line 2: vector F1. -/
theorem test_compress :
    answers (sessionAt .absorbing 64 5) ([0x11, 0, 0, 0] ++ List.replicate 224 0)
      ([0, 0x40, 0, 0, 0xc7, 0x5a, 0x11, 0x19, 0x60, 0x50, 0x3f, 0x4d, 0xb8, 0x0a, 0xdc, 0x57, 0x3d, 0x73, 0xa2, 0x2f,
        0x13, 0x56, 0x84, 0x9f, 0x12, 0xc1, 0xe1, 0xd1, 0xac, 0x02, 0xe9, 0xc8, 0xc9, 0x1d, 0x06, 0x65] ++
       [0xce, 0xe8, 0x4a, 0x46, 0x2f, 0x68, 0x5c, 0x8a, 0x68, 0xd7, 0x09, 0xa4, 0x72, 0xb9, 0x9e, 0x3d, 0x05, 0xe0,
        0x6a, 0x69, 0x5d, 0xc2, 0xd9, 0x61, 0xc9, 0xeb, 0xa0, 0xbd, 0x36, 0x69, 0x2e, 0xee]) = true := by
  decide +kernel

/-- P4 lines 3 and 4: a malformed packet. -/
theorem test_malformed :
    answers (sessionAt .fresh 64 0) [0, 0, 0, 0] [8, 0, 0, 0] = true ∧
    answers (sessionAt .fresh 64 0) [3, 0, 0] [8, 0, 0, 0] = true := by decide +kernel

/-- The next command runs the packet placed by the host's question. -/
theorem test_withFetchWord :
    after (step (State.reset.withFetchWord 32 0x11)) (fun t => (t.rsps.headD []).take 6 == [0, 0x40, 0, 0, 0xc7, 0x5a])
      = true := by decide +kernel

/-- The text form of R59. -/
theorem test_text :
    commandText (.pbuild 64 0 none none) = "PBUILD dl=64, kl=0" ∧
    commandText (.update [0x61, 0x62, 0x63]) = "UPDATE data=616263" ∧
    responseText .bufferTooSmall [] = "-> BufferTooSmall" := by decide +kernel

/-- `UPDATE` of more than `MAX_PAYLOAD` bytes as pieces (R60). -/
theorem test_pieces : updatePieces 2 [1, 2, 3, 4, 5] = [.update [1, 2], .update [3, 4], .update [5]] := by
  decide +kernel

/-! ### Witnesses: for every statement with hypotheses, values that meet them, each clause at a boundary -/

theorem witness_StepRunsDecodedCommand :
    (offered State.reset [5, 0, 0, 0]).cmds = [5, 0, 0, 0] :: [] ∧ decode [5, 0, 0, 0] = .ok .wipe := by
  exact ⟨rfl, rfl⟩

theorem witness_MalformedPacketsAreRefused :
    (offered State.reset [3, 0, 0]).cmds = [3, 0, 0] :: [] ∧ decode [3, 0, 0] = .error .shortPacket ∧
    knownOpcode 0x11 ∧ ¬ knownOpcode 0x12 ∧ reservedClear 0x10 255 255 3 ∧ ¬ reservedClear 0x10 0 0 4 ∧
    ¬ lengthAllowed 0x10 3 31 ∧ lengthAllowed 0x10 3 32 := by
  refine ⟨rfl, rfl, ?_, ?_, ?_, ?_, ?_, ?_⟩
  · unfold knownOpcode
    decide
  · unfold knownOpcode
    decide
  · unfold reservedClear
    decide
  · unfold reservedClear
    decide
  · unfold lengthAllowed
    decide
  · unfold lengthAllowed
    decide

theorem witness_EngineWaitsWithoutPacket : State.reset.cmds = [] := rfl

theorem witness_HeaderSelectsCommand :
    (let H : BitVec 32 := (0 : Byte) ++ (0 : Byte) ++ (1 : Byte) ++ (1 : Byte); H &&& 0xFFFFFEFF = 0x00000001) ∧
    (let H : BitVec 32 := (0 : Byte) ++ (0 : Byte) ++ (255 : Byte) ++ (2 : Byte); H &&& 0xFFFF00FF = 0x00000002) ∧
    (let H : BitVec 32 := (0 : Byte) ++ (0 : Byte) ++ (0 : Byte) ++ (3 : Byte); H &&& 0xFFFFFFFF = 0x00000003) ∧
    (let H : BitVec 32 := (0 : Byte) ++ (0 : Byte) ++ (255 : Byte) ++ (4 : Byte); H &&& 0xFFFF00FF = 0x00000004) ∧
    (let H : BitVec 32 := (0 : Byte) ++ (0 : Byte) ++ (0 : Byte) ++ (5 : Byte); H &&& 0xFFFFFFFF = 0x00000005) ∧
    (let H : BitVec 32 := (2 : Byte) ++ (255 : Byte) ++ (255 : Byte) ++ (0x10 : Byte);
      H &&& 0xFC0000FF = 0x00000010 ∧ (none : Option (Bytes 16)).isSome = H.getLsbD 24 ∧
      (some (Vector.replicate 16 1 : Bytes 16)).isSome = H.getLsbD 25) ∧
    (let H : BitVec 32 := (0 : Byte) ++ (0 : Byte) ++ (0 : Byte) ++ (0x11 : Byte); H &&& 0xFFFFFFFF = 0x00000011) := by
  decide +kernel

theorem witness_TableWordsDecodeToTheirRow :
    (0x101 : BitVec 32) &&& Opcode.init.mask = Opcode.init.pattern ∧
    (0xff02 : BitVec 32) &&& Opcode.initKeyed.mask = Opcode.initKeyed.pattern ∧
    (3 : BitVec 32) &&& Opcode.update.mask = Opcode.update.pattern ∧
    (0xff04 : BitVec 32) &&& Opcode.final.mask = Opcode.final.pattern ∧
    (5 : BitVec 32) &&& Opcode.wipe.mask = Opcode.wipe.pattern ∧
    (0x03ffff10 : BitVec 32) &&& Opcode.pbuild.mask = Opcode.pbuild.pattern ∧
    (0x11 : BitVec 32) &&& Opcode.compress.mask = Opcode.compress.pattern := by decide +kernel

theorem witness_EncodeDecodeAgree : decode [0x10, 1, 64, 0] = .ok (.pbuild 1 64 none none) := by rfl

theorem witness_TransportDeliversWithinMaxPayload :
    Config.wf ⟨some 224⟩ = true ∧ (Instr.wipe).opcode ≠ .initKeyed ∧ (Instr.wipe).opcode ≠ .update := by
  decide +kernel

/-- The last byte of a space, and an access of no byte at its end. -/
theorem witness_ByteSpaceAccesses : (127 + 1 ≤ 128) ∧ (128 + 0 ≤ 128) ∧ (0 + 128 ≤ 128) := by decide

theorem witness_ReadAfterWriteAndMixedWidths : (120 + 8 ≤ 128) ∧ (0 + 2 ≤ 8 ∧ 0 + 8 ≤ 8) := by decide

theorem witness_MixingWritesFourWords :
    ([0, 4, 8, 12] : List (Fin 16)).Nodup ∧ (15 : Fin 16) ∉ ([0, 4, 8, 12] : List (Fin 16)) := by decide

theorem witness_CallsOfAGroupCommute :
    ([3, 2, 1, 0] : List (Fin 8)).Perm [0, 1, 2, 3] ∧ ([5, 4, 7, 6] : List (Fin 8)).Perm [4, 5, 6, 7] := by decide

/-- The length clauses of the parameter block, at their boundaries. -/
theorem witness_InitSeedsSession :
    (let P := block 0 0; P[0].toNat = 0) ∧ (let P := block 65 0; 64 < P[0].toNat) ∧
    (let P := block 1 65; ¬ (P[0].toNat = 0 ∨ 64 < P[0].toNat) ∧ 64 < P[1].toNat) ∧
    (let P := block 64 64; ¬ (P[0].toNat = 0 ∨ 64 < P[0].toNat) ∧ ¬ 64 < P[1].toNat) := by decide +kernel

theorem witness_InitKeyedIsInitThenKeyBlock :
    ((65 : Byte).toNat = 0 ∨ 64 < (65 : Byte).toNat) ∧
    (¬ ((64 : Byte).toNat = 0 ∨ 64 < (64 : Byte).toNat) ∧ 64 < (List.replicate 65 (1 : Byte)).length) ∧
    (1 ≤ (64 : Byte).toNat ∧ (64 : Byte).toNat ≤ 64 ∧ 1 ≤ (bytesFrom 0 64).length ∧ (bytesFrom 0 64).length ≤ 64) := by
  decide +kernel

theorem witness_InitKeyedClosedForm :
    1 ≤ (1 : Byte).toNat ∧ (1 : Byte).toNat ≤ 64 ∧ 1 ≤ ([0x6b] : List Byte).length ∧
    ([0x6b] : List Byte).length ≤ 64 := by decide

theorem witness_UpdateAbsorbsLazily :
    State.reset.ctx.phase = .idle ∧ (sessionAt .finalized 64 0).ctx.phase = .finalized ∧
    ((sessionAt .fresh 64 128).ctx.phase.isOpen = true ∧ (sessionAt .fresh 64 128).ctx.buflen.toNat ≤ 128 ∧
      ([1] : List Byte) ≠ []) := by decide +kernel

/-- A full buffer and 129 more bytes: two blocks flushed. -/
theorem witness_UpdateClosedForm :
    (let s := sessionAt .absorbing 64 128
     s.ctx.phase.isOpen = true ∧ s.ctx.buflen.toNat ≤ 128 ∧ s.ctx.f0 = 0 ∧ s.ctx.f1 = 0 ∧ bytesFrom 0 129 ≠ [] ∧
       bytesFrom 0 128 ++ bytesFrom 0 129 = s.ctx.buf.toList.take s.ctx.buflen.toNat ++ bytesFrom 0 129 ∧
       2 = ((bytesFrom 0 128 ++ bytesFrom 0 129).length - 1) / 128) := by decide +kernel

theorem witness_FinalAnswersDigest :
    State.reset.ctx.phase = .idle ∧ (sessionAt .finalized 64 0).ctx.phase = .finalized ∧
    ((sessionAt .fresh 64 0).ctx.phase.isOpen = true ∧
      (63 : Byte).toNat < (sessionAt .fresh 64 0).ctx.outlen.toNat) ∧
    ((sessionAt .absorbing 64 128).ctx.phase.isOpen = true ∧
      (sessionAt .absorbing 64 128).ctx.outlen.toNat ≤ (64 : Byte).toNat ∧
      (sessionAt .absorbing 64 128).ctx.outlen.toNat ≤ 64 ∧ (sessionAt .absorbing 64 128).ctx.buflen.toNat ≤ 128) := by
  decide +kernel

theorem witness_WipeLeavesResetContext :
    after (exec .wipe (sessionAt .absorbing 64 3)) (fun t => t.ctx == State.reset.ctx) = true := by decide +kernel

theorem witness_StatusIsFirstFailingCheck :
    (offered (sessionAt .fresh 64 0) [4, 63, 0, 0]).cmds = [4, 63, 0, 0] :: [] ∧
    decode [4, 63, 0, 0] = .ok (.final 63) ∧ decode [4, 63, 0, 1] = .error .reservedBits := by decide +kernel

theorem witness_ErrorsChangeNoRegister :
    after (step (offered (sessionAt .fresh 64 0) [4, 63, 0, 0])) (fun t => t.rsps == [] ++ [[5, 0, 0, 0]]) = true ∧
    (([5, 0, 0, 0] : List Byte).headD 0 ≠ 0) := by decide +kernel

theorem witness_OneResponsePerPacket : (offered State.reset []).cmds = [] :: [] := rfl

theorem witness_PhaseTransitions : (sessionAt .fresh 64 0).ctx.phase.isOpen = true := by decide

theorem witness_FreshAndAbsorbingActAlike : (sessionAt .fresh 64 0).ctx.phase = .fresh := by decide

/-- `PBUILD`, `COMPRESS`, an `UPDATE` that just fits, and a `FINAL` that succeeds. -/
theorem witness_CommandFrames :
    after (exec (.pbuild 64 0 none none) State.reset) (fun _ => true) = true ∧
    after (exec (.compress (Vector.replicate 64 0) (Vector.replicate 128 0) 0 0 0 0) State.reset) (fun _ => true)
      = true ∧
    after (exec (.update [1]) (sessionAt .absorbing 64 127)) (fun _ => true) = true ∧
    (sessionAt .absorbing 64 127).ctx.buflen.toNat + ([1] : List Byte).length ≤ 128 ∧
    after (exec (.final 64) (sessionAt .absorbing 64 127)) (fun t => t.ctx.phase == .finalized) = true := by
  decide +kernel

theorem witness_StepKeepsInvariant :
    (offered (sessionAt .absorbing 64 128) [3, 0, 0, 0, 1]).Inv ∧
    after (step (offered (sessionAt .absorbing 64 128) [3, 0, 0, 0, 1])) (fun t => t.ctx.t0 == 128) = true ∧
    (offered (sessionAt .absorbing 1 128) [4, 64, 0, 0]).Inv := by decide +kernel

/-- A run of two refused packets. -/
theorem witness_FinalizedContextIsFrozen :
    let s := { sessionAt .finalized 64 5 with cmds := [[4, 64, 0, 0], [0, 0, 0, 0]] }
    s.ctx.phase = .finalized ∧ (∀ K ∈ s.cmds, ¬ restarts K) ∧
    after (Host.Core.run Sys2Proof.core 2 s) (fun t => t.rsps == [[6, 0, 0, 0], [8, 0, 0, 0]]) = true := by
  refine ⟨rfl, fun K hK => ?_, by decide +kernel⟩
  rintro ⟨i, hi, ho⟩
  simp only [List.mem_cons, List.not_mem_nil, or_false] at hK
  rcases hK with rfl | rfl
  · have h : decode [4, 64, 0, 0] = .ok (.final 64) := by rfl
    rw [h] at hi
    cases hi
    rcases ho with h | h | h <;> cases h
  · have h : decode [0, 0, 0, 0] = .error .reservedOpcode := by rfl
    rw [h] at hi
    cases hi

/-- Two machines that differ in a stale byte, in the transient state and in Fresh against Absorbing. -/
theorem witness_ResponsesIgnoreHiddenState :
    let s := sessionAt .fresh 64 0
    let t := { sessionAt .absorbing 64 0 with
      ctx := { (sessionAt .absorbing 64 0).ctx with buf := Vector.replicate 128 7 }
      tmp := { Transient.zero with scr := Vector.replicate 64 1 } }
    s.Alike t ∧ s ≠ t := by
  refine ⟨⟨Or.inr (Or.inr ⟨rfl, rfl, rfl, rfl, rfl, rfl, rfl, rfl, rfl, rfl, fun i hi => ?_⟩), rfl, rfl⟩, ?_⟩
  · exact absurd hi (Nat.not_lt_zero i.val)
  · decide +kernel

theorem witness_HiddenStateNeverReachesHost :
    let s := { State.reset with cmds := [[5, 0, 0, 0]] }
    let t := { s with ctx := { Context.reset with outlen := 3 } }
    s.Alike t ∧ s ≠ t := by
  refine ⟨⟨Or.inl ⟨rfl, rfl⟩, rfl, rfl⟩, by decide +kernel⟩

theorem witness_UpdatesCompose :
    after (exec (.update [1]) (sessionAt .fresh 64 127)) (fun a =>
      after (exec (.update [2]) a) fun b => b.ctx.buflen == 1 && b.ctx.t0 == 128) = true := by decide +kernel

/-- The least `m`, and the least finite `MAX_PAYLOAD`. -/
theorem witness_LongUpdateIsCutIntoPieces : 1 ≤ 1 ∧ 1 ≤ 224 := by decide

theorem witness_SessionComputesDigest :
    let P := block 1 64
    1 ≤ P[0].toNat ∧ P[0].toNat ≤ 64 ∧ P[1].toNat ≤ 64 ∧ P[0].toNat ≤ (1 : Byte).toNat := by decide +kernel

theorem witness_KeyedSessionComputesDigest :
    1 ≤ (64 : Byte).toNat ∧ (64 : Byte).toNat ≤ 64 ∧ 1 ≤ (bytesFrom 0 64).length ∧ (bytesFrom 0 64).length ≤ 64 ∧
    (64 : Byte).toNat ≤ (255 : Byte).toNat ∧
    (block 64 64).toList = blockBytes 64 (BitVec.ofNat 8 (bytesFrom 0 64).length) none none := by decide +kernel

/-- Vector S13: what the function of a whole message says of the empty message with `outlen = 1`. -/
theorem test_messageDigest : messageDigest (block 1 0) false [] = [0x2e] := by decide +kernel

end Sys2Proof.Tests
end

section
/-! The scope of a step (spec/00_scope.md R5 and R6, spec/20_memory.md R38): which of the cases of `step_cases` a step
takes is decided by the port and by `decode` alone. -/

namespace Sys2Proof.Machine

/-- Taking the packet drops the oldest one from the port and touches nothing else (R38). -/
theorem State.takePacket_of_cmds_eq_cons {s : State} {K : List Byte} {rest : List (List Byte)}
    (hs : s.cmds = K :: rest) : s.takePacket = { s with cmds := rest } := by
  rw [State.takePacket, hs, List.tail_cons]

theorem step_of_cmds_eq_nil {s : State} (hs : s.cmds = []) : step s = .next s := by
  obtain ⟨-, hstep⟩ | ⟨K, rest, hcons, -⟩ := step_cases s
  · exact hstep
  · exact absurd (hs.symm.trans hcons) (List.cons_ne_nil K rest).symm

theorem step_of_decode_ok {s : State} {K : List Byte} {rest : List (List Byte)} {i : Instr}
    (hs : s.cmds = K :: rest) (hK : decode K = .ok i) : step s = exec i s.takePacket := by
  obtain ⟨hnil, -⟩ | ⟨K', rest', hcons, hcase⟩ := step_cases s
  · exact absurd (hs.symm.trans hnil) (List.cons_ne_nil K rest)
  · obtain ⟨rfl, -⟩ : K = K' ∧ rest = rest' := List.cons.inj (hs.symm.trans hcons)
    obtain ⟨e, he, -⟩ | ⟨j, hj, hstep⟩ := hcase
    · exact nomatch hK.symm.trans he
    · obtain rfl : i = j := Except.ok.inj (hK.symm.trans hj)
      exact hstep

/-- Settles O2: the decoded case of a step, with the packet gone from the port (R5, R38). -/
theorem stepRunsDecodedCommand : Obligations.StepRunsDecodedCommand := by
  intro s K rest i hs hK
  rw [step_of_decode_ok hs hK, State.takePacket_of_cmds_eq_cons hs]

/-- Settles O4: an empty port leaves only the waiting case of a step (R6, log entry 3). -/
theorem engineWaitsWithoutPacket : Obligations.EngineWaitsWithoutPacket :=
  fun _ hs => step_of_cmds_eq_nil hs

end Sys2Proof.Machine
end

section
/-! Reset and the invariants of the context (spec/10_state.md R18, R24; spec/42_hash_state_machine.md R111). An open
session has an invariant of its own, `Context.SessionInv`, which no phase enters: a seed makes it, every absorbed byte
keeps it. What a command can do to the context is said once, in `ContextAfter`. -/

namespace Sys2Proof.Machine

/-! ### Reset -/

@[simp] theorem State.assertReset_ctx (s : State) : s.assertReset.ctx = Context.reset := rfl
@[simp] theorem State.assertReset_tmp (s : State) : s.assertReset.tmp = Transient.zero := rfl

/-- Settles O1: both kinds of reset write `Context.reset` and `Transient.zero`, whose every entry is zero. -/
theorem resetZeroesEveryRegister : Obligations.ResetZeroesEveryRegister := by
  intro s
  refine ⟨rfl, rfl, rfl, rfl, rfl, rfl, rfl, fun i => ?_, rfl, rfl, rfl, rfl, fun i => ?_, rfl, rfl, rfl,
    fun i => ⟨?_, ?_⟩, fun i => ⟨?_, ?_⟩, fun i => ?_⟩ <;>
  simp [Context.reset, Transient.zero]

theorem Context.inv_reset : Context.reset.Inv :=
  ⟨fun _ => rfl, fun h => absurd rfl h, by decide, rfl, rfl, fun _ => rfl, fun _ _ => ⟨rfl, rfl⟩⟩

/-- Settles O37: the reset context is the one context R18 allows in `Idle`. -/
theorem invariantHoldsAtReset : Obligations.InvariantHoldsAtReset := ⟨Context.inv_reset, rfl⟩

/-! ### The invariant of an open session -/

/-- What R18 says of the registers of an open session, whichever of the two open phases it is in. -/
structure Context.SessionInv (c : Context) : Prop where
  outlen_pos : 1 ≤ c.outlen.toNat
  outlen_le : c.outlen.toNat ≤ 64
  buflen_le : c.buflen.toNat ≤ 128
  f0_eq : c.f0 = 0
  f1_eq : c.f1 = 0
  t0_mod : c.t0.toNat % 128 = 0
  count_zero : c.buflen = 0 → c.t0 = 0 ∧ c.t1 = 0

theorem Phase.isOpen_iff (p : Phase) : p.isOpen = true ↔ p ≠ .idle ∧ p ≠ .finalized := by
  cases p <;> decide

theorem Context.Inv.session {c : Context} (hc : c.Inv) (hp : c.phase.isOpen = true) : c.SessionInv := by
  obtain ⟨-, hout, hbuf, hf0, hf1, ht0, hcount⟩ := hc
  obtain ⟨hidle, hfin⟩ := (Phase.isOpen_iff _).1 hp
  exact
    { outlen_pos := (hout hidle).1
      outlen_le := (hout hidle).2
      buflen_le := hbuf
      f0_eq := by rw [hf0, if_neg hfin]
      f1_eq := by rw [hf1, if_neg fun h => hfin h.1]
      t0_mod := ht0 hp
      count_zero := hcount hp }

/-- An open phase on top of the session's registers is all the invariant asks. -/
theorem Context.SessionInv.inv_withPhase {c : Context} (hc : c.SessionInv) {p : Phase} (hp : p.isOpen = true) :
    ({ c with phase := p } : Context).Inv := by
  obtain ⟨hidle, hfin⟩ := (Phase.isOpen_iff p).1 hp
  exact ⟨fun h => absurd h hidle, fun _ => ⟨hc.outlen_pos, hc.outlen_le⟩, hc.buflen_le,
    by rw [if_neg hfin]; exact hc.f0_eq, by rw [if_neg fun h => hfin h.1]; exact hc.f1_eq,
    fun _ => hc.t0_mod, fun _ => hc.count_zero⟩

theorem Context.sessionInv_seed (c : Context) {P : Bytes 64} (hP : digestLengthOk P[0] = true) (ln : Bool) :
    (c.seed P ln).SessionInv := by
  obtain ⟨hpos, hle⟩ := (digestLengthOk_iff P[0]).1 hP
  constructor <;> simp [hpos, hle]

/-- Adding a block's length keeps the low word a multiple of it: `2^64` is one too (R101). -/
theorem add64_blockLength_mod {w : Word} (hw : w.toNat % 128 = 0) : (add64 w 128).toNat % 128 = 0 := by
  rw [add64, BitVec.toNat_add, show (128 : Word).toNat = 128 from rfl]
  omega

/-- `buflen` does not wrap where there is room, so one byte more is never an empty buffer. -/
theorem toNat_succ_of_lt {n : Byte} (hn : n.toNat < 128) : (n + 1).toNat = n.toNat + 1 := by
  rw [BitVec.toNat_add, show (1 : Byte).toNat = 1 from rfl]
  omega

/-- A byte put where there is room leaves the buffer not empty, so the count may be anything. -/
theorem Context.sessionInv_putByte {c : Context} (hpos : 1 ≤ c.outlen.toNat) (hle : c.outlen.toNat ≤ 64)
    (hbuf : c.buflen.toNat < 128) (hf0 : c.f0 = 0) (hf1 : c.f1 = 0) (ht0 : c.t0.toNat % 128 = 0) (b : Byte) :
    (c.putByte b).SessionInv where
  outlen_pos := by simpa using hpos
  outlen_le := by simpa using hle
  buflen_le := by
    rw [Context.putByte_buflen, toNat_succ_of_lt hbuf]
    omega
  f0_eq := by simpa using hf0
  f1_eq := by simpa using hf1
  t0_mod := by simpa using ht0
  count_zero h := by
    have hsucc := toNat_succ_of_lt hbuf
    rw [← Context.putByte_buflen c b, h] at hsucc
    exact absurd hsucc (by simp)

theorem State.sessionInv_absorb (s : State) (b : Byte) (hs : s.ctx.SessionInv) : (s.absorb b).ctx.SessionInv := by
  rw [State.absorb_ctx]
  split
  case isTrue hfull =>
    exact Context.sessionInv_putByte (by simpa using hs.outlen_pos) (by simpa using hs.outlen_le) (by simp)
      (by simpa using hs.f0_eq) (by simpa using hs.f1_eq) (by simpa using add64_blockLength_mod hs.t0_mod) b
  case isFalse hroom =>
    have hne : s.ctx.buflen.toNat ≠ 128 := fun h => hroom (BitVec.eq_of_toNat_eq h)
    exact Context.sessionInv_putByte hs.outlen_pos hs.outlen_le (by have := hs.buflen_le; omega) hs.f0_eq hs.f1_eq
      hs.t0_mod b

theorem State.sessionInv_absorbAll (s : State) (D : List Byte) (hs : s.ctx.SessionInv) :
    (s.absorbAll D).ctx.SessionInv :=
  State.absorbAll_induct State.sessionInv_absorb s D hs

/-- What the last compression writes to the flags, and the registers it leaves (R106). -/
theorem State.finish_registers (s : State) :
    s.finish.ctx.f0 = allOnes ∧ s.finish.ctx.f1 = (if s.ctx.lastNode then allOnes else s.ctx.f1) ∧
    s.finish.ctx.buflen = s.ctx.buflen ∧ s.finish.ctx.outlen = s.ctx.outlen ∧
    s.finish.ctx.lastNode = s.ctx.lastNode := by
  simp [State.finish_ctx]

/-- `FINAL` sets both flags as R18 asks of `Finalized`: `f[1]` was zero, so it is set by `last_node` alone. -/
theorem State.inv_finish {s : State} (hs : s.ctx.SessionInv) :
    ({ s.finish.ctx with phase := .finalized } : Context).Inv := by
  obtain ⟨hf0, hf1, hbuf, hout, hln⟩ := s.finish_registers
  refine ⟨nofun, fun _ => ?_, ?_, ?_, ?_, nofun, nofun⟩
  · rw [hout]
    exact ⟨hs.outlen_pos, hs.outlen_le⟩
  · rw [hbuf]
    exact hs.buflen_le
  · simpa using hf0
  · simpa [hln, hs.f1_eq] using hf1

/-! ### What a command does to the context -/

/-- The check lets a command through exactly in an open session (R105, R106). -/
theorem phaseCheck_cases (p : Phase) :
    (p = .idle ∧ phaseCheck p = .error .notInitialized) ∨
    (p = .finalized ∧ phaseCheck p = .error .alreadyFinalized) ∨
    (p.isOpen = true ∧ phaseCheck p = .ok ()) := by
  cases p with
  | idle => exact .inl ⟨rfl, rfl⟩
  | finalized => exact .inr (.inl ⟨rfl, rfl⟩)
  | fresh => exact .inr (.inr ⟨rfl, rfl⟩)
  | absorbing => exact .inr (.inr ⟨rfl, rfl⟩)

theorem phaseCheck_of_isOpen {p : Phase} (hp : p.isOpen = true) : phaseCheck p = .ok () := by
  obtain ⟨rfl, -⟩ | ⟨rfl, -⟩ | ⟨-, hc⟩ := phaseCheck_cases p
  · exact absurd hp nofun
  · exact absurd hp nofun
  · exact hc

/-- The first byte of the builder's block is the digest length (R90, R93). -/
theorem buildBlock_digestLength (dl kl : Byte) (salt pers : Option (Bytes 16)) :
    (buildBlock dl kl salt pers)[0] = dl := by
  simp [buildBlock, writeOptionalField_getElem, memWrite_getElem]

/-- Every context a command can leave behind in a machine `s`: one constructor for each way to write it. -/
inductive ContextAfter (s : State) : Context → Prop where
  /-- Errors, `PBUILD` and `COMPRESS` (R141, R93, R127). -/
  | kept : ContextAfter s s.ctx
  /-- `INIT` (R102). -/
  | seeded (P : Bytes 64) (ln : Bool) (hP : digestLengthOk P[0] = true) : ContextAfter s (s.ctx.seed P ln)
  /-- `INIT_KEYED`: a seed, then the key block absorbed (R103). -/
  | keyed (u : State) (P : Bytes 64) (D : List Byte) (hP : digestLengthOk P[0] = true)
      (hu : u.ctx = s.ctx.seed P false) : ContextAfter s { (u.absorbAll D).ctx with phase := .fresh }
  /-- `UPDATE` in an open session (R105). -/
  | absorbed (D : List Byte) (hs : s.ctx.phase.isOpen = true) :
      ContextAfter s { (s.absorbAll D).ctx with phase := .absorbing }
  /-- `FINAL` in an open session (R106). -/
  | finished (hs : s.ctx.phase.isOpen = true) : ContextAfter s { s.finish.ctx with phase := .finalized }
  /-- `WIPE` (R107). -/
  | wiped : ContextAfter s Context.reset

/-- An outcome of a command in `s`: a next state with the transient state zero and a context of `ContextAfter`. -/
def Completes (s : State) (o : Host.Outcome State Fault Refusal) : Prop :=
  ∃ t, o = .next t ∧ t.tmp = Transient.zero ∧ ContextAfter s t.ctx

/-- Responding ends a command: the context is the one it has built, and the transient state is zeroed (R111). -/
theorem Completes.respond {s u : State} (hu : ContextAfter s u.ctx) (st : Status) (pay : List Byte) :
    Completes s (.next (u.respond st pay)) :=
  ⟨_, rfl, rfl, hu⟩

theorem Completes.raise (s : State) (e : Status) : Completes s (.next (s.raise e)) := .respond .kept e []

theorem execInit_completes (ln : Bool) (pb : Bytes 64) (s : State) : Completes s (execInit ln pb s) := by
  unfold execInit
  split
  · exact .raise s _
  · next hdl =>
    split
    · exact .raise s _
    · exact .respond (.seeded pb ln (by simpa using hdl)) _ _

theorem execInitKeyed_completes (outlen : Byte) (key : List Byte) (s : State) :
    Completes s (execInitKeyed outlen key s) := by
  unfold execInitKeyed
  split
  · exact .raise s _
  · next hdl =>
    split
    · exact .raise s _
    · refine .respond (.keyed _ (buildBlock outlen (BitVec.ofNat 8 key.length) none none) _ ?_ (by simp)) _ _
      simpa [buildBlock_digestLength] using hdl

theorem execUpdate_completes (data : List Byte) (s : State) : Completes s (execUpdate data s) := by
  unfold execUpdate
  obtain ⟨-, hc⟩ | ⟨-, hc⟩ | ⟨hp, hc⟩ := phaseCheck_cases s.ctx.phase <;> rw [hc]
  · exact .raise s _
  · exact .raise s _
  · exact .respond (.absorbed data hp) _ _

theorem execFinal_completes (cap : Byte) (s : State) : Completes s (execFinal cap s) := by
  unfold execFinal
  obtain ⟨-, hc⟩ | ⟨-, hc⟩ | ⟨hp, hc⟩ := phaseCheck_cases s.ctx.phase <;> rw [hc]
  · exact .raise s _
  · exact .raise s _
  · dsimp only
    split
    · exact .raise s _
    · exact .respond (by simpa using ContextAfter.finished hp) _ _

theorem execPbuild_completes (dl kl : Byte) (salt pers : Option (Bytes 16)) (s : State) :
    Completes s (execPbuild dl kl salt pers s) := by
  unfold execPbuild
  cases build dl kl salt pers with
  | error e => exact .raise s e
  | ok P => exact .respond .kept _ _

theorem exec_completes (i : Instr) (s : State) : Completes s (exec i s) := by
  cases i with
  | init ln pb => exact execInit_completes ln pb s
  | initKeyed outlen key => exact execInitKeyed_completes outlen key s
  | update data => exact execUpdate_completes data s
  | final cap => exact execFinal_completes cap s
  | wipe => exact .respond .wiped _ _
  | pbuild dl kl salt pers => exact execPbuild_completes dl kl salt pers s
  | compress h block t0 t1 f0 f1 => exact .respond (by simpa using ContextAfter.kept) _ _

/-! ### The invariant along a step -/

theorem ContextAfter.inv {s : State} (hs : s.ctx.Inv) {c : Context} (hc : ContextAfter s c) : c.Inv := by
  cases hc with
  | kept => exact hs
  | seeded P ln hP => exact (s.ctx.sessionInv_seed hP ln).inv_withPhase (p := .fresh) rfl
  | keyed u P D hP hu =>
    exact (u.sessionInv_absorbAll D (hu ▸ s.ctx.sessionInv_seed hP false)).inv_withPhase rfl
  | absorbed D hp => exact (s.sessionInv_absorbAll D (hs.session hp)).inv_withPhase rfl
  | finished hp => exact State.inv_finish (hs.session hp)
  | wiped => exact Context.inv_reset

/-- Settles O38: a step that takes a packet leaves the transient state zero, and one of the contexts of
`ContextAfter`, each of which keeps R18. -/
theorem stepKeepsInvariant : Obligations.StepKeepsInvariant := by
  intro s t hs hstep
  obtain ⟨-, heq⟩ | ⟨K, rest, -, ⟨e, -, heq⟩ | ⟨i, -, heq⟩⟩ := step_cases s
  · obtain rfl : s = t := Host.Outcome.next.inj (heq.symm.trans hstep)
    exact hs
  · obtain rfl : s.takePacket.illegal = t := Host.Outcome.next.inj (heq.symm.trans hstep)
    exact ⟨hs.1, rfl⟩
  · obtain ⟨u, hexec, htmp, hctx⟩ := exec_completes i s.takePacket
    obtain rfl : u = t := Host.Outcome.next.inj ((heq.trans hexec).symm.trans hstep)
    exact ⟨ContextAfter.inv (s := s.takePacket) hs.1 hctx, htmp⟩

end Sys2Proof.Machine
end

section
/-! What no response may depend on (spec/10_state.md R14, R21; spec/42_hash_state_machine.md R100). Two machines that are
`State.Alike` run the same command side by side: the open case of `Context.Alike` is `Context.SameSession`, which the
operations of a session keep, and `AnswersAlike` carries the relation through the outcomes. -/

namespace Sys2Proof.Machine

/-- The refused case of a step (R56). -/
theorem step_of_decode_error {s : State} {K : List Byte} {rest : List (List Byte)} {e : Malformed}
    (hs : s.cmds = K :: rest) (hK : decode K = .error e) : step s = .next s.takePacket.illegal := by
  obtain ⟨hnil, -⟩ | ⟨K', rest', hcons, hcase⟩ := step_cases s
  · exact absurd (hs.symm.trans hnil) (List.cons_ne_nil K rest)
  · obtain ⟨rfl, -⟩ : K = K' ∧ rest = rest' := List.cons.inj (hs.symm.trans hcons)
    obtain ⟨e', -, hstep⟩ | ⟨j, hj, -⟩ := hcase
    · exact hstep
    · exact nomatch hK.symm.trans hj

/-! ### Two contexts in the same session -/

/-- Both contexts are in an open session, with equal registers and equal valid bytes of `buf`. -/
structure Context.SameSession (c d : Context) : Prop where
  isOpen_left : c.phase.isOpen = true
  isOpen_right : d.phase.isOpen = true
  h : c.h = d.h
  t0 : c.t0 = d.t0
  t1 : c.t1 = d.t1
  f0 : c.f0 = d.f0
  f1 : c.f1 = d.f1
  buflen : c.buflen = d.buflen
  outlen : c.outlen = d.outlen
  lastNode : c.lastNode = d.lastNode
  valid : ∀ i : Fin 128, i.val < c.buflen.toNat → c.buf[i] = d.buf[i]

theorem Context.alike_iff (c d : Context) : c.Alike d ↔
    (c.phase = .idle ∧ d.phase = .idle) ∨ (c.phase = .finalized ∧ d.phase = .finalized) ∨ c.SameSession d := by
  refine or_congr_right (or_congr_right ⟨?_, ?_⟩)
  · rintro ⟨hc, hd, hh, ht0, ht1, hf0, hf1, hbuf, hout, hln, hvalid⟩
    exact ⟨hc, hd, hh, ht0, ht1, hf0, hf1, hbuf, hout, hln, hvalid⟩
  · rintro ⟨hc, hd, hh, ht0, ht1, hf0, hf1, hbuf, hout, hln, hvalid⟩
    exact ⟨hc, hd, hh, ht0, ht1, hf0, hf1, hbuf, hout, hln, hvalid⟩

theorem Context.SameSession.alike {c d : Context} (h : c.SameSession d) : c.Alike d :=
  (Context.alike_iff c d).2 (.inr (.inr h))

theorem Context.alike_of_finalized {c d : Context} (hc : c.phase = .finalized) (hd : d.phase = .finalized) :
    c.Alike d :=
  (Context.alike_iff c d).2 (.inr (.inl ⟨hc, hd⟩))

/-- A context is in the same session as itself once it is in one. -/
theorem Context.sameSession_refl {c : Context} (hc : c.phase.isOpen = true) : c.SameSession c :=
  ⟨hc, hc, rfl, rfl, rfl, rfl, rfl, rfl, rfl, rfl, fun _ _ => rfl⟩

/-- Fresh against Absorbing does not count. -/
theorem Context.SameSession.withPhase {c d : Context} (h : c.SameSession d) {p : Phase} (hp : p.isOpen = true) :
    ({ c with phase := p } : Context).SameSession { d with phase := p } :=
  ⟨hp, hp, h.h, h.t0, h.t1, h.f0, h.f1, h.buflen, h.outlen, h.lastNode, h.valid⟩

/-- A full buffer has no stale bytes. -/
theorem Context.SameSession.buf_eq_of_full {c d : Context} (h : c.SameSession d) (hfull : c.buflen = 128) :
    c.buf = d.buf := by
  refine Vector.ext fun i hi => h.valid ⟨i, hi⟩ ?_
  rw [hfull]
  exact hi

/-- Padding overwrites the stale bytes (R106). -/
theorem Context.SameSession.padBuffer_buf_eq {c d : Context} (h : c.SameSession d) :
    c.padBuffer.buf = d.padBuffer.buf := by
  refine Vector.ext fun i hi => ?_
  simp only [Context.padBuffer_buf, Vector.getElem_ofFn, ← h.buflen]
  split
  · rfl
  · next hlt => exact h.valid ⟨i, hi⟩ (Nat.lt_of_not_le hlt)

/-- The byte put is the last valid one, at the same index in both (R104). -/
theorem Context.SameSession.putByte {c d : Context} (h : c.SameSession d) (b : Byte) :
    (c.putByte b).SameSession (d.putByte b) where
  isOpen_left := by simpa using h.isOpen_left
  isOpen_right := by simpa using h.isOpen_right
  h := by simpa using h.h
  t0 := by simpa using h.t0
  t1 := by simpa using h.t1
  f0 := by simpa using h.f0
  f1 := by simpa using h.f1
  buflen := by simpa using h.buflen
  outlen := by simpa using h.outlen
  lastNode := by simpa using h.lastNode
  valid i hi := by
    have hle : i.val ≤ c.buflen.toNat := by
      rw [Context.putByte_buflen, BitVec.toNat_add, show (1 : Byte).toNat = 1 from rfl] at hi
      omega
    simp only [Context.putByte_buf, Fin.getElem_fin, Vector.getElem_setIfInBounds, ← h.buflen]
    split
    · rfl
    · next hne => exact h.valid i (Nat.lt_of_le_of_ne hle (Ne.symm hne))

/-- A flush compresses equal full buffers and leaves no valid byte (R104). -/
theorem State.sameSession_flush {s t : State} (h : s.ctx.SameSession t.ctx) (hfull : s.ctx.buflen = 128) :
    s.flush.ctx.SameSession t.flush.ctx := by
  rw [State.flush_ctx, State.flush_ctx]
  constructor <;>
    simp [h.isOpen_left, h.isOpen_right, h.h, h.t0, h.t1, h.f0, h.f1, h.outlen, h.lastNode, h.buf_eq_of_full hfull]

theorem State.sameSession_absorb {s t : State} (h : s.ctx.SameSession t.ctx) (b : Byte) :
    (s.absorb b).ctx.SameSession (t.absorb b).ctx := by
  rw [State.absorb_ctx, State.absorb_ctx, ← h.buflen]
  split
  · next hfull => exact (State.sameSession_flush h hfull).putByte b
  · exact h.putByte b

theorem State.sameSession_absorbAll {s t : State} (h : s.ctx.SameSession t.ctx) (D : List Byte) :
    (s.absorbAll D).ctx.SameSession (t.absorbAll D).ctx := by
  induction D generalizing s t with
  | nil => exact h
  | cons b D ih => exact ih (State.sameSession_absorb h b)

/-- The digest is the same: the last compression reads the padded buffer and the registers (R106). -/
theorem State.finish_h_eq {s t : State} (h : s.ctx.SameSession t.ctx) : s.finish.ctx.h = t.finish.ctx.h := by
  have hpad := h.padBuffer_buf_eq
  simp [State.finish_ctx, -Context.padBuffer_buf, hpad, h.h, h.t0, h.t1, h.f1, h.buflen, h.lastNode]

/-- So is the response payload: the eight word writes leave nothing of what `SCR` held (R106). -/
theorem State.finishedDigest_eq {s t : State} (h : s.ctx.SameSession t.ctx) :
    (s.finish.writeScratch.setPhase .finalized).tmp.scr.toList.take
        (s.finish.writeScratch.setPhase .finalized).ctx.outlen.toNat =
      (t.finish.writeScratch.setPhase .finalized).tmp.scr.toList.take
        (t.finish.writeScratch.setPhase .finalized).ctx.outlen.toNat := by
  simp only [State.setPhase_tmp, State.writeScratch_tmp, State.setPhase_ctx, State.writeScratch_ctx]
  rw [State.finish_h_eq h, writeWords_congr s.finish.tmp.scr t.finish.tmp.scr]
  simp [State.finish_ctx, h.outlen]

/-! ### Two machines the host cannot tell apart -/

theorem State.Alike.takePacket {s t : State} (h : s.Alike t) : s.takePacket.Alike t.takePacket := by
  obtain ⟨hctx, hcmds, hrsps⟩ := h
  exact ⟨hctx, congrArg List.tail hcmds, hrsps⟩

/-- Two outcomes are next states that are alike. -/
def AnswersAlike (o p : Host.Outcome State Fault Refusal) : Prop :=
  ∃ s t, o = .next s ∧ p = .next t ∧ s.Alike t

theorem AnswersAlike.next {s t : State} (h : s.Alike t) : AnswersAlike (.next s) (.next t) := ⟨s, t, rfl, rfl, h⟩

/-- Two commands end with the same response; the transient state they leave does not count (R111). -/
theorem AnswersAlike.respond {s t : State} (h : s.Alike t) (st : Status) (pay : List Byte) :
    AnswersAlike (.next (s.respond st pay)) (.next (t.respond st pay)) := by
  obtain ⟨hctx, hcmds, hrsps⟩ := h
  exact .next ⟨hctx, hcmds, congrArg (· ++ [responsePacket st pay]) hrsps⟩

/-- Two commands fail with the same error (R141). -/
theorem AnswersAlike.raise {s t : State} (h : s.Alike t) (e : Status) :
    AnswersAlike (.next (s.raise e)) (.next (t.raise e)) := .respond h e []

/-- The phase check refuses both contexts alike, and lets a command through in the same session only. -/
theorem Context.Alike.phaseCheck_cases {c d : Context} (h : c.Alike d) :
    (∃ e, phaseCheck c.phase = .error e ∧ phaseCheck d.phase = .error e) ∨
    (c.SameSession d ∧ phaseCheck c.phase = .ok () ∧ phaseCheck d.phase = .ok ()) := by
  obtain ⟨hc, hd⟩ | ⟨hc, hd⟩ | hs := (Context.alike_iff c d).1 h
  · exact .inl ⟨.notInitialized, by rw [hc]; rfl, by rw [hd]; rfl⟩
  · exact .inl ⟨.alreadyFinalized, by rw [hc]; rfl, by rw [hd]; rfl⟩
  · exact .inr ⟨hs, phaseCheck_of_isOpen hs.isOpen_left, phaseCheck_of_isOpen hs.isOpen_right⟩

/-- A seed overwrites every register, so it puts any two machines in the same session (R102). -/
theorem State.sameSession_seed (s t : State) (P : Bytes 64) (ln : Bool) :
    ((s.stageBlock P).seed ln).ctx.SameSession ((t.stageBlock P).seed ln).ctx :=
  (Context.sameSession_refl rfl : (s.ctx.seed P ln).SameSession (s.ctx.seed P ln))

/-! ### The commands side by side -/

section
variable {s t : State} (h : s.Alike t)
include h

theorem State.Alike.seed (P : Bytes 64) (ln : Bool) : ((s.stageBlock P).seed ln).Alike ((t.stageBlock P).seed ln) :=
  ⟨(State.sameSession_seed s t P ln).alike, h.2⟩

theorem State.Alike.absorbAll (hs : s.ctx.SameSession t.ctx) (D : List Byte) {p : Phase} (hp : p.isOpen = true) :
    ((s.absorbAll D).setPhase p).Alike ((t.absorbAll D).setPhase p) :=
  ⟨((State.sameSession_absorbAll hs D).withPhase hp).alike, by simpa using h.2⟩

theorem State.Alike.finish :
    (s.finish.writeScratch.setPhase .finalized).Alike (t.finish.writeScratch.setPhase .finalized) :=
  ⟨Context.alike_of_finalized rfl rfl, by simpa using h.2⟩

theorem execInit_answersAlike (ln : Bool) (pb : Bytes 64) : AnswersAlike (execInit ln pb s) (execInit ln pb t) := by
  unfold execInit
  split
  · exact .raise h _
  · split
    · exact .raise h _
    · exact .respond (h.seed pb ln) _ _

theorem execInitKeyed_answersAlike (outlen : Byte) (key : List Byte) :
    AnswersAlike (execInitKeyed outlen key s) (execInitKeyed outlen key t) := by
  unfold execInitKeyed
  split
  · exact .raise h _
  · split
    · exact .raise h _
    · simp only [State.stageKey_tmp]
      refine .respond (State.Alike.absorbAll ⟨?_, by simpa using h.2⟩ ?_ _ rfl) _ _
      · simpa using (State.sameSession_seed s t _ false).alike
      · simpa using State.sameSession_seed s t _ false

theorem execUpdate_answersAlike (data : List Byte) : AnswersAlike (execUpdate data s) (execUpdate data t) := by
  unfold execUpdate
  obtain ⟨e, hs, ht⟩ | ⟨hsession, hs, ht⟩ := h.1.phaseCheck_cases <;> rw [hs, ht]
  · exact .raise h e
  · exact .respond (h.absorbAll hsession data rfl) _ _

theorem execFinal_answersAlike (cap : Byte) : AnswersAlike (execFinal cap s) (execFinal cap t) := by
  unfold execFinal
  obtain ⟨e, hs, ht⟩ | ⟨hsession, hs, ht⟩ := h.1.phaseCheck_cases <;> rw [hs, ht]
  · exact .raise h e
  · dsimp only
    rw [← hsession.outlen]
    split
    · exact .raise h _
    · rw [← State.finishedDigest_eq hsession]
      exact .respond h.finish _ _

theorem execPbuild_answersAlike (dl kl : Byte) (salt pers : Option (Bytes 16)) :
    AnswersAlike (execPbuild dl kl salt pers s) (execPbuild dl kl salt pers t) := by
  unfold execPbuild
  cases build dl kl salt pers with
  | error e => exact .raise h e
  | ok P => exact .respond (s := s.stageBlock P) (t := t.stageBlock P) h _ _

theorem execCompress_answersAlike (hin : Bytes 64) (block : Bytes 128) (t0 t1 f0 f1 : Word) :
    AnswersAlike (execCompress hin block t0 t1 f0 f1 s) (execCompress hin block t0 t1 f0 f1 t) := by
  simp only [execCompress, State.runRounds_v]
  refine .respond ?_ _ _
  simpa [State.Alike] using h

theorem exec_answersAlike (i : Instr) : AnswersAlike (exec i s) (exec i t) := by
  cases i with
  | init ln pb => exact execInit_answersAlike h ln pb
  | initKeyed outlen key => exact execInitKeyed_answersAlike h outlen key
  | update data => exact execUpdate_answersAlike h data
  | final cap => exact execFinal_answersAlike h cap
  | wipe => exact .respond (s := s.setCtx Context.reset) (t := t.setCtx Context.reset) ⟨.inl ⟨rfl, rfl⟩, h.2⟩ _ _
  | pbuild dl kl salt pers => exact execPbuild_answersAlike h dl kl salt pers
  | compress hin block t0 t1 f0 f1 => exact execCompress_answersAlike h hin block t0 t1 f0 f1

/-- The oldest packet is the same in both machines, so both take the same case of a step. -/
theorem step_answersAlike : AnswersAlike (step s) (step t) := by
  have hcmds : s.cmds = t.cmds := h.2.1
  cases hs : s.cmds with
  | nil =>
    rw [step_of_cmds_eq_nil hs, step_of_cmds_eq_nil (hcmds.symm.trans hs)]
    exact .next h
  | cons K rest =>
    have ht : t.cmds = K :: rest := hcmds.symm.trans hs
    cases hK : decode K with
    | error e =>
      rw [step_of_decode_error hs hK, step_of_decode_error ht hK]
      exact .raise h.takePacket _
    | ok i =>
      rw [step_of_decode_ok hs hK, step_of_decode_ok ht hK]
      exact exec_answersAlike h.takePacket i

end

/-- Settles O41: the relation of `State.Alike` goes through each case of a step. -/
theorem responsesIgnoreHiddenState : Obligations.ResponsesIgnoreHiddenState := fun _ _ h => step_answersAlike h

/-! ### Whole runs -/

theorem run_succ_of_step {s s' : State} (hs : step s = .next s') (n : Nat) :
    Host.Core.run Sys2Proof.core (n + 1) s = Host.Core.run Sys2Proof.core n s' := by
  simp only [Host.Core.run, show Sys2Proof.core.step s = .next s' from hs]

theorem run_answersAlike (n : Nat) {s t : State} (h : s.Alike t) :
    AnswersAlike (Host.Core.run Sys2Proof.core n s) (Host.Core.run Sys2Proof.core n t) := by
  induction n generalizing s t with
  | zero => exact .next h
  | succ n ih =>
    obtain ⟨s', t', hs, ht, h'⟩ := step_answersAlike h
    rw [run_succ_of_step hs, run_succ_of_step ht]
    exact ih h'

/-- Settles O42: machines that are alike run to machines that are alike, which have sent the same responses. -/
theorem hiddenStateNeverReachesHost : Obligations.HiddenStateNeverReachesHost := by
  intro n s t h
  obtain ⟨s', t', hs, ht, -, -, hrsps⟩ := run_answersAlike n h
  exact ⟨s', t', hs, ht, hrsps⟩

end Sys2Proof.Machine
end

section
/-! The byte spaces and the order of the commands (spec/20_memory.md R32, R38). A read of `m + n` bytes is a read of `m`
and a read of `n`, and the bytes in the place just written are the ones `natToBytes` lists; a step on a queue does not
look behind its first packet. -/

namespace Sys2Proof.Machine

open Sys2Proof.Claims

/-! ### Reads and writes of a byte space -/

/-- The weight of byte `k` in the codec's spelling and in the spec's. -/
theorem bytePow_eq (k : Nat) : 256 ^ k = 2 ^ (8 * k) := (pow_mul 2 8 k).symm

theorem bytesToNat_append (l r : List Byte) :
    bytesToNat (l ++ r) = bytesToNat l + 256 ^ l.length * bytesToNat r := by
  induction l with
  | nil => simp [bytesToNat]
  | cons b bs ih =>
    simp only [List.cons_append, bytesToNat, ih, List.length_cons]
    ring

section
variable {N : Nat} (S : Bytes N)

/-- Two adjacent reads put together (R32, and the mixed-width view of R42). -/
theorem memRead_add (a m n : Nat) (h : a + (m + n) ≤ N) :
    memRead S a (m + n) h = memRead S a m (by omega) + 256 ^ m * memRead S (a + m) n (by omega) := by
  have hlen : ((S.toList.drop a).take m).length = m := by simp; omega
  simp only [memRead, slice_toList, List.take_add, bytesToNat_append, List.drop_drop, hlen]

@[simp] theorem memRead_zero (a : Nat) (h : a + 0 ≤ N) : memRead S a 0 h = 0 := by
  simp [memRead, bytesToNat]

@[simp] theorem memRead_one (a : Nat) (h : a + 1 ≤ N) : memRead S a 1 h = S[a].toNat := by
  have hbyte : (S.toList.drop a).take 1 = [S[a]] := by
    rw [List.take_one_drop_eq_of_lt_length (by simpa using h), List.get_eq_getElem, Vector.getElem_toList]
  simp [memRead, hbyte, bytesToNat]

/-- A read is the sum of its bytes (R32): each further byte is the read of one byte behind the others. -/
theorem memRead_eq_sum (a n : Nat) (h : a + n ≤ N) :
    memRead S a n h = ((List.finRange n).map fun k => S[a + k.val].toNat * 2 ^ (8 * k.val)).sum := by
  induction n with
  | zero => simp
  | succ n ih =>
    rw [memRead_add S a n 1 h, ih (by omega), List.finRange_succ_last]
    simp [Function.comp_def, bytePow_eq, Nat.mul_comm]

/-- The bytes in the place just written are the low bytes of the value. -/
theorem slice_memWrite (a n x : Nat) (h : a + n ≤ N) :
    (slice (memWrite S a n x h).toList a n (by simpa using h)).toList = natToBytes n x := by
  apply List.ext_getElem
  · rw [Vector.length_toList, natToBytes_length]
  · intro k hk _
    have hkn : k < n := by rwa [Vector.length_toList] at hk
    rw [Vector.getElem_toList, slice_getElem _ _ _ _ _ hkn, Vector.getElem_toList, memWrite_getElem,
      if_pos (by omega), natToBytes_getElem, Nat.shiftRight_eq_div_pow, Nat.add_sub_cancel_left, bytePow_eq]

/-- A read after a write to the same place gives the low `8n` bits of the value (R32). -/
theorem memRead_memWrite (a n x : Nat) (h : a + n ≤ N) :
    memRead (memWrite S a n x h) a n h = x % 2 ^ (8 * n) := by
  rw [memRead, slice_memWrite, bytesToNat_natToBytes, bytePow_eq]

end

/-- Settles O15: the sum of `memRead_eq_sum`, and what one write does to every byte of its space (R32). -/
theorem byteSpaceAccesses : Obligations.ByteSpaceAccesses := by
  intro N S a n h
  refine ⟨memRead_eq_sum S a n h, fun x j => ?_⟩
  rw [Fin.getElem_fin, memWrite_getElem, Nat.shiftRight_eq_div_pow, Fin.getElem_fin]

/-- Settles O16: `memRead_memWrite`, and `memRead_add` at two halves of four bytes (R32). -/
theorem readAfterWriteAndMixedWidths : Obligations.ReadAfterWriteAndMixedWidths := by
  intro N S a n x h
  exact ⟨memRead_memWrite S a n x h, memRead_add S a 4 4⟩

/-! ### The order of the commands -/

/-- A step takes the first packet of a queue, answers it with one response, and does the same whatever waits behind
it (R38). -/
theorem step_waiting_cons (s : State) (K : List Byte) : ∃ (u : State) (Q : List Byte), u.rsps = s.rsps ++ [Q] ∧
    ∀ rest, step (waiting s (K :: rest)) = .next (waiting u rest) := by
  cases hK : decode K with
  | error e => exact ⟨s.illegal, _, rfl, fun rest => step_of_decode_error rfl hK⟩
  | ok i =>
    obtain ⟨c, Q, hexec⟩ := exec_local i s.ctx
    exact ⟨⟨c, Transient.zero, [], s.rsps ++ [Q]⟩, Q, rfl,
      fun rest => (step_of_decode_ok rfl hK).trans (hexec _ rfl)⟩

/-- Settles O40, by induction on the packets that run: each step is one of `step_waiting_cons`, with one response and
the rest of the queue left alone (R38). -/
theorem commandsRunInOrder : Obligations.CommandsRunInOrder := by
  intro s Ks later
  induction Ks generalizing s with
  | nil => exact ⟨waiting s later, [], rfl, rfl, rfl, rfl, (List.append_nil _).symm⟩
  | cons K Ks ih =>
    obtain ⟨u, Q, hQ, hstep⟩ := step_waiting_cons s K
    obtain ⟨t, Qs, hlong, hshort, hcmds, hlen, hrsps⟩ := ih u
    refine ⟨t, Q :: Qs, (run_succ_of_step (hstep _) _).trans hlong, (run_succ_of_step (hstep _) _).trans hshort,
      hcmds, congrArg (· + 1) hlen, ?_⟩
    rw [hrsps, hQ, List.append_assoc, List.singleton_append]

end Sys2Proof.Machine
end

section
/-! Decoding what the encoder gives (spec/30_encoding.md R51 to R54). Each row has one lemma that reads its operands
back from a payload made of them; with the row lemmas of `Laws.EncodeRow` for the header it gives `decode_encode`. -/

namespace Sys2Proof

open Machine Claims

/-! ### Operands of eight bytes -/

theorem store64_toList (x : Word) : (store64 x).toList = natToBytes 8 x.toNat := rfl

theorem load64_store64 (x : Word) : load64 (store64 x) = x := by
  apply BitVec.eq_of_toNat_eq
  have hx : x.toNat < 256 ^ 8 := x.isLt
  rw [load64, store64_toList, bytesToNat_natToBytes,
    Nat.mod_eq_of_lt hx, BitVec.ofNat_toNat, BitVec.setWidth_eq]

theorem store64_load64 (B : Bytes 8) : store64 (load64 B) = B := by
  have hlen : B.toList.length = 8 := B.length_toList
  have hlt : bytesToNat B.toList < 2 ^ 64 := by simpa [hlen] using bytesToNat_lt B.toList
  apply Vector.toList_inj.1
  rw [store64_toList, load64, BitVec.toNat_ofNat,
    Nat.mod_eq_of_lt hlt]
  simpa only [hlen] using natToBytes_bytesToNat B.toList

/-! ### The header word -/

theorem bitLN_eq_getLsbD (H : BitVec 32) : bitLN H = H.getLsbD 8 := by simp [bitLN, fieldA]
theorem bitHS_eq_getLsbD (H : BitVec 32) : bitHS H = H.getLsbD 24 := by simp [bitHS, fieldC]
theorem bitHP_eq_getLsbD (H : BitVec 32) : bitHP H = H.getLsbD 25 := by simp [bitHP, fieldC]

theorem headerWord_eq_append (k0 k1 k2 k3 : Byte) : headerWord k0 k1 k2 k3 = k3 ++ k2 ++ k1 ++ k0 := by
  apply BitVec.eq_of_toNat_eq
  rw [headerWord_toNat, BitVec.toNat_append, BitVec.toNat_append, BitVec.toNat_append,
    ← Nat.shiftLeft_add_eq_or_of_lt k0.isLt, ← Nat.shiftLeft_add_eq_or_of_lt k1.isLt,
    ← Nat.shiftLeft_add_eq_or_of_lt k2.isLt]
  omega

section
variable (k0 k1 k2 k3 : Byte)

@[simp] theorem fieldA_headerWord : fieldA (headerWord k0 k1 k2 k3) = k1 := (headerWord_fields k0 k1 k2 k3).2.1
@[simp] theorem fieldB_headerWord : fieldB (headerWord k0 k1 k2 k3) = k2 := (headerWord_fields k0 k1 k2 k3).2.2.1
@[simp] theorem fieldC_headerWord : fieldC (headerWord k0 k1 k2 k3) = k3 := (headerWord_fields k0 k1 k2 k3).2.2.2
@[simp] theorem bitLN_headerWord : bitLN (headerWord k0 k1 k2 k3) = k1[0] := by simp [bitLN]
@[simp] theorem bitHS_headerWord : bitHS (headerWord k0 k1 k2 k3) = k3[0] := by simp [bitHS]
@[simp] theorem bitHP_headerWord : bitHP (headerWord k0 k1 k2 k3) = k3[1] := by simp [bitHP]

end

/-- A flag byte without reserved bits is the one of its two presence bits (R53). -/
theorem presenceByte_bits (k : Byte) (h : k.toNat < 4) : presenceByte k[0] k[1] = k := by
  revert k
  decide +kernel

@[simp] theorem presenceByte_getElem_zero (hs hp : Bool) : (presenceByte hs hp)[0] = hs := by
  cases hs <;> cases hp <;> rfl

@[simp] theorem presenceByte_getElem_one (hs hp : Bool) : (presenceByte hs hp)[1] = hp := by
  cases hs <;> cases hp <;> rfl

/-! ### The payload of a row -/

theorem decodePayload_init (H : BitVec 32) (pb : Bytes 64) :
    decodePayload .init H pb.toList = .ok (.init (bitLN H) pb) :=
  dif_pos pb.length_toList

theorem decodePayload_nil_final (H : BitVec 32) : decodePayload .final H [] = .ok (.final (fieldA H)) := rfl

theorem decodePayload_pbuild {H : BitVec 32} {salt pers : Option (Bytes 16)} (hs : salt.isSome = bitHS H)
    (hp : pers.isSome = bitHP H) : decodePayload .pbuild H (optionBytes salt ++ optionBytes pers) =
      .ok (.pbuild (fieldA H) (fieldB H) salt pers) := by
  have hlen : (optionBytes salt ++ optionBytes pers).length = 16 * (bitHS H).toNat + 16 * (bitHP H).toNat := by
    rw [← hs, ← hp]
    cases salt <;> cases pers <;> simp [optionBytes]
  rw [decodePayload, dif_pos hlen]
  congr 2
  · cases salt with
    | none => rw [dif_neg (by simp [← hs])]
    | some S =>
      rw [dif_pos (by simp [← hs]), slice_eq_of_bytes (B := S)]
      simp [optionBytes]
  · cases pers with
    | none => rw [dif_neg (by simp [← hp])]
    | some P =>
      rw [dif_pos (by simp [← hp]), slice_eq_of_bytes (B := P)]
      cases salt <;> simp [optionBytes, ← hs]

/-- Each operand lies behind the bytes of the operands before it, and its own length cuts it off (R53). -/
theorem decodePayload_compress (H : BitVec 32) (h : Bytes 64) (block : Bytes 128) (t0 t1 f0 f1 : Bytes 8) :
    decodePayload .compress H (h.toList ++ block.toList ++ t0.toList ++ t1.toList ++ f0.toList ++ f1.toList) =
      .ok (.compress h block (load64 t0) (load64 t1) (load64 f0) (load64 f1)) := by
  rw [decodePayload, dif_pos (by simp), slice_eq_of_bytes (B := h), slice_eq_of_bytes (B := block),
    slice_eq_of_bytes (B := t0), slice_eq_of_bytes (B := t1), slice_eq_of_bytes (B := f0),
    slice_eq_of_bytes (B := f1)] <;>
  simp [List.drop_append, List.drop_eq_nil_of_le, List.take_of_length_le]

/-! ### Decoding what the encoder gives -/

theorem encodeRow (i : Instr) : Laws.EncodeRow.Statement i := by
  cases i with
  | init ln pb => exact Laws.EncodeRow.init ln pb
  | initKeyed outlen key => exact Laws.EncodeRow.initKeyed outlen key
  | update data => exact Laws.EncodeRow.update data
  | final cap => exact Laws.EncodeRow.final cap
  | wipe => exact Laws.EncodeRow.wipe
  | pbuild dl kl salt pers => exact Laws.EncodeRow.pbuild dl kl salt pers
  | compress h block t0 t1 f0 f1 => exact Laws.EncodeRow.compress h block t0 t1 f0 f1

/-- The packet of a command passes the mask test of its row, so only its payload is left to decode. -/
theorem decode_encode_eq_decodePayload {i : Instr} {k1 k2 k3 : Byte} {pay : List Byte}
    (henc : encode i = i.opcode.code :: k1 :: k2 :: k3 :: pay) :
    decode (encode i) = decodePayload i.opcode (headerWord i.opcode.code k1 k2 k3) pay := by
  obtain ⟨k1', k2', k3', pay', henc', hmask, -⟩ := encodeRow i
  obtain ⟨rfl, rfl, rfl, rfl⟩ : k1' = k1 ∧ k2' = k2 ∧ k3' = k3 ∧ pay' = pay := by
    simpa using henc'.symm.trans henc
  rw [henc, decode_of_mask _ hmask]

theorem decode_encode (i : Instr) : decode (encode i) = .ok i := by
  cases i with
  | init ln pb =>
    rw [decode_encode_eq_decodePayload (i := .init ln pb) rfl, Instr.opcode, decodePayload_init, bitLN_headerWord]
    cases ln <;> rfl
  | initKeyed outlen key =>
    rw [decode_encode_eq_decodePayload (i := .initKeyed outlen key) rfl, Instr.opcode, decodePayload,
      fieldA_headerWord]
  | update data => exact decode_encode_eq_decodePayload (i := .update data) rfl
  | final cap =>
    rw [decode_encode_eq_decodePayload (i := .final cap) rfl, Instr.opcode, decodePayload_nil_final, fieldA_headerWord]
  | wipe => exact decode_encode_eq_decodePayload (i := .wipe) rfl
  | pbuild dl kl salt pers =>
    rw [decode_encode_eq_decodePayload (i := .pbuild dl kl salt pers) rfl, Instr.opcode,
      decodePayload_pbuild (by simp) (by simp), fieldA_headerWord, fieldB_headerWord]
  | compress h block t0 t1 f0 f1 =>
    rw [decode_encode_eq_decodePayload (i := .compress h block t0 t1 f0 f1) rfl, Instr.opcode,
      decodePayload_compress]
    simp only [load64_store64]

/-- Settles O8: the packet passes the mask test of its row, and the payload lemma of the row gives the operands back
(R53, R54). -/
theorem decodeEncodeAgree : Obligations.DecodeEncodeAgree := decode_encode

end Sys2Proof
end
section
/-! The rows of the opcode map, byte by byte (spec/30_encoding.md R53 to R56, R58). A row is `Opcode.Clear` for its
header bytes and `Opcode.Accepts` for its payload length; a packet that passes both is one the encoder gives. -/

namespace Sys2Proof

open Machine Claims

/-! ### The mask test of a row -/

/-- The bits of the operand bytes that a row asks to be zero are zero (R53). -/
def Opcode.Clear : Opcode → Byte → Byte → Byte → Prop
  | .init, k1, k2, k3 => (k1 = 0 ∨ k1 = 1) ∧ k2 = 0 ∧ k3 = 0
  | .initKeyed, _, k2, k3 => k2 = 0 ∧ k3 = 0
  | .update, k1, k2, k3 => k1 = 0 ∧ k2 = 0 ∧ k3 = 0
  | .final, _, k2, k3 => k2 = 0 ∧ k3 = 0
  | .wipe, k1, k2, k3 => k1 = 0 ∧ k2 = 0 ∧ k3 = 0
  | .pbuild, _, _, k3 => k3.toNat < 4
  | .compress, k1, k2, k3 => k1 = 0 ∧ k2 = 0 ∧ k3 = 0

theorem byte_and_255 (k : Byte) : k &&& 255#8 = k := BitVec.and_allOnes

theorem byte_and_254_eq_zero (k : Byte) : k &&& 254#8 = 0#8 ↔ k = 0#8 ∨ k = 1#8 := by
  revert k
  decide +kernel

theorem byte_and_252_eq_zero (k : Byte) : k &&& 252#8 = 0#8 ↔ k.toNat < 4 := by
  revert k
  decide +kernel

/-- The mask test fixes the opcode byte and clears the reserved bits (R54). -/
theorem headerWord_matches_iff (op : Opcode) (k0 k1 k2 k3 : Byte) :
    headerWord k0 k1 k2 k3 &&& op.mask = op.pattern ↔ k0 = op.code ∧ op.Clear k1 k2 k3 := by
  rw [headerWord_mask]
  cases op <;>
    simp [Opcode.mask, Opcode.pattern, Opcode.code, Opcode.Clear, fieldOPC, fieldA, fieldB, fieldC, byte_and_255,
      byte_and_254_eq_zero, byte_and_252_eq_zero]

theorem decode_of_matches {op : Opcode} {k0 k1 k2 k3 : Byte} (hm : headerWord k0 k1 k2 k3 &&& op.mask = op.pattern)
    (pay : List Byte) : decode (k0 :: k1 :: k2 :: k3 :: pay) = decodePayload op (headerWord k0 k1 k2 k3) pay := by
  obtain ⟨rfl, -⟩ := (headerWord_matches_iff op k0 k1 k2 k3).1 hm
  exact decode_of_mask pay hm

theorem optionBytes_eq_elim (B : Option (Bytes 16)) : optionBytes B = B.elim [] Vector.toList := by
  cases B <;> rfl

/-- Settles O5: the header is the header word, its row decodes the payload, and the payload lemma of the row gives the
operands (R53, R54). -/
theorem headerSelectsCommand : Obligations.HeaderSelectsCommand := by
  intro k0 k1 k2 k3 H hH
  obtain rfl : H = headerWord k0 k1 k2 k3 := hH.trans (headerWord_eq_append k0 k1 k2 k3).symm
  refine ⟨fun hm pb => ?_, fun hm key => ?_, fun hm data => ?_, fun hm => ?_, fun hm => ?_,
    fun hm salt pers hs hp => ?_, fun hm h block t0 t1 f0 f1 => ?_⟩
  · rw [decode_of_matches (op := .init) hm, decodePayload_init, bitLN_eq_getLsbD]
  · rw [decode_of_matches (op := .initKeyed) hm, decodePayload, fieldA_headerWord]
  · exact decode_of_matches (op := .update) hm data
  · rw [decode_of_matches (op := .final) hm, decodePayload_nil_final, fieldA_headerWord]
  · exact decode_of_matches (op := .wipe) hm []
  · rw [← bitHS_eq_getLsbD] at hs
    rw [← bitHP_eq_getLsbD] at hp
    rw [decode_of_matches (op := .pbuild) hm, ← optionBytes_eq_elim, ← optionBytes_eq_elim,
      decodePayload_pbuild hs hp, fieldA_headerWord, fieldB_headerWord]
  · rw [decode_of_matches (op := .compress) hm, decodePayload_compress]

/-! ### The payload length of a row -/

/-- The row takes a payload of `n` bytes under the header `H` (R55). -/
def Opcode.Accepts (op : Opcode) (H : BitVec 32) (n : Nat) : Prop := ∀ m, requiredLength op H = some m → n = m

/-- Where a row requires a length, test 4 compares the payload with it (R56). -/
theorem decodePayload_cases_of_requiredLength {op : Opcode} {H : BitVec 32} {pay : List Byte} {n : Nat}
    {f : pay.length = n → Instr} (hn : requiredLength op H = some n)
    (hdec : decodePayload op H pay = if h : pay.length = n then .ok (f h) else .error .payloadLength)
    (hf : ∀ h, (f h).opcode = op) :
    (op.Accepts H pay.length ∧ ∃ i, decodePayload op H pay = .ok i ∧ i.opcode = op) ∨
    (¬ op.Accepts H pay.length ∧ decodePayload op H pay = .error .payloadLength) := by
  by_cases h : pay.length = n
  · exact .inl ⟨fun m hm => h.trans (Option.some.inj (hn.symm.trans hm)), f h, hdec.trans (dif_pos h), hf h⟩
  · exact .inr ⟨fun ha => h (ha n hn), hdec.trans (dif_neg h)⟩

/-- Everything the payload of a row can decode to: a command of the row, or the refusal of test 4 (R55, R56). -/
theorem decodePayload_cases (op : Opcode) (H : BitVec 32) (pay : List Byte) :
    (op.Accepts H pay.length ∧ ∃ i, decodePayload op H pay = .ok i ∧ i.opcode = op) ∨
    (¬ op.Accepts H pay.length ∧ decodePayload op H pay = .error .payloadLength) := by
  cases op with
  | init => exact decodePayload_cases_of_requiredLength rfl rfl fun _ => rfl
  | initKeyed => exact .inl ⟨nofun, _, rfl, rfl⟩
  | update => exact .inl ⟨nofun, _, rfl, rfl⟩
  | final => exact decodePayload_cases_of_requiredLength (f := fun _ => .final (fieldA H)) rfl rfl fun _ => rfl
  | wipe => exact decodePayload_cases_of_requiredLength (f := fun _ => .wipe) rfl rfl fun _ => rfl
  | pbuild => exact decodePayload_cases_of_requiredLength rfl rfl fun _ => rfl
  | compress => exact decodePayload_cases_of_requiredLength rfl rfl fun _ => rfl

/-! ### The rows asked of the decoder -/

theorem natToBytes_toNat_eq_fields (H : BitVec 32) :
    natToBytes 4 H.toNat = [fieldOPC H, fieldA H, fieldB H, fieldC H] := by
  simp [natToBytes, fieldOPC, fieldA, fieldB, fieldC, BitVec.extractLsb', Nat.shiftRight_eq_div_pow,
    Nat.div_div_eq_div_mul]

/-- The packet of a header word: its four bytes, then zeros as long as its row requires (log entry 6). -/
theorem tablePacket_toNat (H : BitVec 32) : ∃ n, (∀ op, opcodeOf H = some op → op.Accepts H n) ∧
    tablePacket 32 H.toNat = fieldOPC H :: fieldA H :: fieldB H :: fieldC H :: List.replicate n 0 := by
  refine ⟨((opcodeOf H).bind fun op => requiredLength op H).getD 0, fun op hop m hm => ?_, ?_⟩
  · simp [hop, hm]
  · simp [tablePacket, Nat.mod_eq_of_lt H.isLt, natToBytes_toNat_eq_fields]

/-- Settles O6: the zeros of a table packet are as many as the row of its header accepts, so the payload decodes to a
command of that row (R54, R55). -/
theorem tableWordsDecodeToTheirRow : Obligations.TableWordsDecodeToTheirRow := by
  intro op H hm
  obtain ⟨n, hn, hK⟩ := tablePacket_toNat H
  have hH := headerWord_of_fields H
  rw [← hH] at hm
  have hop : opcodeOf H = some op := by
    obtain ⟨hcode, -⟩ := (headerWord_matches_iff ..).1 hm
    rw [← hH, hcode, opcodeOf_code]
  obtain ⟨-, i, hi, hrow⟩ | ⟨hna, -⟩ := decodePayload_cases op H (List.replicate n 0)
  · refine ⟨i, ?_, hrow⟩
    rw [decodeTableWord, hK, decode_of_matches hm, hH, hi]
  · exact absurd (hn op hop) (by simpa using hna)

/-! ### Every packet that passes the tests is one the encoder gives -/

theorem exists_bytes_append {l : List Byte} (n m : Nat) (hl : l.length = n + m) :
    ∃ (B : Bytes n) (r : List Byte), l = B.toList ++ r ∧ r.length = m :=
  ⟨⟨⟨l.take n⟩, by simp [hl]⟩, l.drop n, (List.take_append_drop n l).symm, by simp [hl]⟩

theorem exists_optionBytes_eq (b : Bool) {l : List Byte} (hl : l.length = 16 * b.toNat) :
    ∃ B : Option (Bytes 16), B.isSome = b ∧ optionBytes B = l := by
  cases b with
  | false => exact ⟨none, rfl, (List.eq_nil_of_length_eq_zero hl).symm⟩
  | true => exact ⟨some ⟨⟨l⟩, hl⟩, rfl, rfl⟩

/-- A header in the row and a payload of an accepted length leave no choice but the operands (R58). -/
theorem exists_encode_eq {op : Opcode} {k1 k2 k3 : Byte} {pay : List Byte} (hc : op.Clear k1 k2 k3)
    (ha : op.Accepts (headerWord op.code k1 k2 k3) pay.length) :
    ∃ i, encode i = op.code :: k1 :: k2 :: k3 :: pay := by
  cases op with
  | init =>
    obtain ⟨rfl | rfl, rfl, rfl⟩ := hc
    · exact ⟨.init false ⟨⟨pay⟩, ha 64 rfl⟩, rfl⟩
    · exact ⟨.init true ⟨⟨pay⟩, ha 64 rfl⟩, rfl⟩
  | initKeyed =>
    obtain ⟨rfl, rfl⟩ := hc
    exact ⟨.initKeyed k1 pay, rfl⟩
  | update =>
    obtain ⟨rfl, rfl, rfl⟩ := hc
    exact ⟨.update pay, rfl⟩
  | final =>
    obtain ⟨rfl, rfl⟩ := hc
    obtain rfl := List.eq_nil_of_length_eq_zero (ha 0 rfl)
    exact ⟨.final k1, rfl⟩
  | wipe =>
    obtain ⟨rfl, rfl, rfl⟩ := hc
    obtain rfl := List.eq_nil_of_length_eq_zero (ha 0 rfl)
    exact ⟨.wipe, rfl⟩
  | pbuild =>
    have hlen : pay.length = 16 * k3[0].toNat + 16 * k3[1].toNat := by simpa using ha _ rfl
    obtain ⟨salt, hsalt, hs⟩ := exists_optionBytes_eq k3[0] (l := pay.take (16 * k3[0].toNat)) (by simp [hlen])
    obtain ⟨pers, hpers, hp⟩ := exists_optionBytes_eq k3[1] (l := pay.drop (16 * k3[0].toNat)) (by simp [hlen])
    refine ⟨.pbuild k1 k2 salt pers, ?_⟩
    rw [encode, hsalt, hpers, presenceByte_bits k3 hc, hs, hp, List.take_append_drop]
    rfl
  | compress =>
    obtain ⟨rfl, rfl, rfl⟩ := hc
    obtain ⟨h, r1, rfl, h1⟩ := exists_bytes_append 64 160 (ha 224 rfl)
    obtain ⟨block, r2, rfl, h2⟩ := exists_bytes_append 128 32 h1
    obtain ⟨t0, r3, rfl, h3⟩ := exists_bytes_append 8 24 h2
    obtain ⟨t1, r4, rfl, h4⟩ := exists_bytes_append 8 16 h3
    obtain ⟨f0, r5, rfl, h5⟩ := exists_bytes_append 8 8 h4
    obtain ⟨f1, r6, rfl, h6⟩ := exists_bytes_append 8 0 h5
    obtain rfl := List.eq_nil_of_length_eq_zero h6
    refine ⟨.compress h block (load64 t0) (load64 t1) (load64 f0) (load64 f1), ?_⟩
    simp [encode, packet, store64_load64, Opcode.code]

/-! ### The four tests of a packet in their order -/

theorem knownOpcode_iff (k0 : Byte) : knownOpcode k0 ↔ ∃ op : Opcode, k0 = op.code := by
  constructor
  · intro h
    simp only [knownOpcode, List.mem_cons, List.not_mem_nil, or_false] at h
    obtain rfl | rfl | rfl | rfl | rfl | rfl | rfl := h
    exacts [⟨.init, rfl⟩, ⟨.initKeyed, rfl⟩, ⟨.update, rfl⟩, ⟨.final, rfl⟩, ⟨.wipe, rfl⟩, ⟨.pbuild, rfl⟩,
      ⟨.compress, rfl⟩]
  · rintro ⟨op, rfl⟩
    cases op <;> simp [knownOpcode, Opcode.code]

theorem decode_of_not_knownOpcode {k0 : Byte} (h : ¬ knownOpcode k0) (k1 k2 k3 : Byte) (pay : List Byte) :
    decode (k0 :: k1 :: k2 :: k3 :: pay) = .error .reservedOpcode := by
  have hnone : opcodeOf (headerWord k0 k1 k2 k3) = none := by
    simp only [knownOpcode, List.mem_cons, List.not_mem_nil, or_false, not_or] at h
    simp only [opcodeOf_headerWord, h, if_false]
  simp only [decode, hnone]

theorem reservedClear_iff (op : Opcode) (k1 k2 k3 : Byte) : reservedClear op.code k1 k2 k3 ↔ op.Clear k1 k2 k3 := by
  cases op <;> simp [reservedClear, Opcode.code, Opcode.Clear]

theorem byte_getElem_zero_toNat (k : Byte) : k[0].toNat = k.toNat % 2 := by
  revert k
  decide +kernel

theorem byte_getElem_one_toNat (k : Byte) : k[1].toNat = k.toNat / 2 % 2 := by
  revert k
  decide +kernel

theorem lengthAllowed_iff (op : Opcode) (k1 k2 k3 : Byte) (n : Nat) :
    lengthAllowed op.code k3 n ↔ op.Accepts (headerWord op.code k1 k2 k3) n := by
  cases op <;> simp [lengthAllowed, Opcode.code, Opcode.Accepts, requiredLength, byte_getElem_zero_toNat,
    byte_getElem_one_toNat]

theorem knownOpcode_of_reservedClear {k0 k1 k2 k3 : Byte} (h : reservedClear k0 k1 k2 k3) : knownOpcode k0 := by
  obtain ⟨rfl, -⟩ | ⟨rfl, -⟩ | ⟨rfl, -⟩ | ⟨rfl, -⟩ | ⟨rfl, -⟩ | ⟨rfl, -⟩ | ⟨rfl, -⟩ := h <;> simp [knownOpcode]

/-- The verdict on a packet with a header: tests 2 to 4 in their order, or a command (R56). -/
theorem decode_header_cases (k0 k1 k2 k3 : Byte) (pay : List Byte) :
    (decode (k0 :: k1 :: k2 :: k3 :: pay) = .error .reservedOpcode ∧ ¬ knownOpcode k0) ∨
    (decode (k0 :: k1 :: k2 :: k3 :: pay) = .error .reservedBits ∧ knownOpcode k0 ∧ ¬ reservedClear k0 k1 k2 k3) ∨
    (decode (k0 :: k1 :: k2 :: k3 :: pay) = .error .payloadLength ∧ reservedClear k0 k1 k2 k3 ∧
      ¬ lengthAllowed k0 k3 pay.length) ∨
    (∃ i, decode (k0 :: k1 :: k2 :: k3 :: pay) = .ok i ∧ reservedClear k0 k1 k2 k3 ∧
      lengthAllowed k0 k3 pay.length) := by
  by_cases hknown : knownOpcode k0
  case neg => exact .inl ⟨decode_of_not_knownOpcode hknown k1 k2 k3 pay, hknown⟩
  obtain ⟨op, rfl⟩ := (knownOpcode_iff k0).1 hknown
  rw [reservedClear_iff, lengthAllowed_iff op k1 k2 k3, decode_of_opcodeOf pay (opcodeOf_code op k1 k2 k3)]
  by_cases hclear : op.Clear k1 k2 k3
  case neg => exact .inr (.inl ⟨if_neg fun hm => hclear ((headerWord_matches_iff ..).1 hm).2, hknown, hclear⟩)
  rw [if_pos ((headerWord_matches_iff ..).2 ⟨rfl, hclear⟩)]
  obtain ⟨hlen, i, hi, -⟩ | ⟨hlen, he⟩ := decodePayload_cases op (headerWord op.code k1 k2 k3) pay
  · exact .inr (.inr (.inr ⟨i, hi, hclear, hlen⟩))
  · exact .inr (.inr (.inl ⟨he, hclear, hlen⟩))

/-- A packet is short, test 1, or has a header (R50, R56). -/
theorem decode_cases (K : List Byte) : (K.length < 4 ∧ decode K = .error .shortPacket) ∨
    ∃ k0 k1 k2 k3 pay, K = k0 :: k1 :: k2 :: k3 :: pay :=
  match K with
  | [] | [_] | [_, _] | [_, _, _] => .inl ⟨by simp, rfl⟩
  | k0 :: k1 :: k2 :: k3 :: pay => .inr ⟨k0, k1, k2, k3, pay, rfl⟩

/-- A refused packet is answered `IllegalCommand` without a payload (R56). -/
theorem illegal_eq_answered (s : State) : s.illegal = answered s 0x08 [] := by
  rw [State.illegal, State.raise, State.respond, responsePacket_nil]
  rfl

/-- Settles O3: the verdicts of `decode_header_cases` exclude each other, and a refused packet is answered by
`State.illegal` (R56). -/
theorem malformedPacketsAreRefused : Obligations.MalformedPacketsAreRefused := by
  refine ⟨fun K => ?_, fun k0 k1 k2 k3 pay => ?_, fun s K rest e hs hK => ?_⟩
  · obtain ⟨hlen, hK⟩ | ⟨k0, k1, k2, k3, pay, rfl⟩ := decode_cases K
    · simp [hlen, hK]
    · obtain ⟨h, -⟩ | ⟨h, -⟩ | ⟨h, -⟩ | ⟨i, h, -⟩ := decode_header_cases k0 k1 k2 k3 pay <;> simp [h]
  · obtain ⟨h, hk⟩ | ⟨h, hk, hc⟩ | ⟨h, hc, hl⟩ | ⟨i, h, hc, hl⟩ := decode_header_cases k0 k1 k2 k3 pay
    · simp [h, hk, mt knownOpcode_of_reservedClear hk]
    · simp [h, hk, hc]
    · simp [h, hc, hl, knownOpcode_of_reservedClear hc]
    · simp [h, hc, hl, knownOpcode_of_reservedClear hc]
  · rw [step_of_decode_error hs hK, State.takePacket_of_cmds_eq_cons hs, illegal_eq_answered]

/-- A packet that decodes has passed the four tests, so it is the packet of some command, which can only be the one it
decodes to (R58). -/
theorem encode_of_decode_eq_ok {K : List Byte} {i : Instr} (hK : decode K = .ok i) : encode i = K := by
  obtain ⟨-, he⟩ | ⟨k0, k1, k2, k3, pay, rfl⟩ := decode_cases K
  · exact nomatch he.symm.trans hK
  obtain ⟨he, -⟩ | ⟨he, -⟩ | ⟨he, -⟩ | ⟨-, -, hclear, hlen⟩ := decode_header_cases k0 k1 k2 k3 pay
  · exact nomatch he.symm.trans hK
  · exact nomatch he.symm.trans hK
  · exact nomatch he.symm.trans hK
  obtain ⟨op, rfl⟩ := (knownOpcode_iff k0).1 (knownOpcode_of_reservedClear hclear)
  obtain ⟨j, hj⟩ := exists_encode_eq ((reservedClear_iff ..).1 hclear) ((lengthAllowed_iff ..).1 hlen)
  obtain rfl : i = j := Except.ok.inj (hK.symm.trans (hj ▸ decode_encode j))
  exact hj

/-- Settles O9: no bit of a packet that decodes is left out of its command (R58). -/
theorem encodeDecodeAgree : Obligations.EncodeDecodeAgree := fun _ _ => encode_of_decode_eq_ok

end Sys2Proof
end
section
/-! Packets in flight (spec/30_encoding.md R50, R52, R60): what the transport delivers, the one response of every
packet, and a long `UPDATE` sent in pieces. -/

namespace Sys2Proof

open Machine

/-! ### The transport -/

theorem Config.carries_iff (c : Config) (n : Nat) : c.carries n = true ↔ ∀ m, c.maxPayload = some m → n ≤ m := by
  unfold Config.carries
  cases c.maxPayload <;> simp

theorem Config.wf_iff (c : Config) : c.wf = true ↔ ∀ m, c.maxPayload = some m → 224 ≤ m := by
  unfold Config.wf
  cases c.maxPayload <;> simp

/-- `COMPRESS` has the longest payload of fixed length (R50, R55). -/
theorem payloadLength_le_of_fixed {i : Instr} (hkeyed : i.opcode ≠ .initKeyed) (hupdate : i.opcode ≠ .update) :
    i.payloadLength ≤ 224 := by
  cases i with
  | initKeyed outlen key => exact absurd rfl hkeyed
  | update data => exact absurd rfl hupdate
  | pbuild dl kl salt pers =>
    have hs := Bool.toNat_le salt.isSome
    have hp := Bool.toNat_le pers.isSome
    simp only [Instr.payloadLength]
    omega
  | _ => simp [Instr.payloadLength]

/-- Settles O10: `encode_length` turns the transport's test of the packet into the command's (R50). -/
theorem transportDeliversWithinMaxPayload : Obligations.TransportDeliversWithinMaxPayload := by
  intro c i s
  have hlen := encode_length i
  refine ⟨?_, ?_, fun hc hkeyed hupdate => ?_⟩
  · rw [State.send, hlen, Nat.add_sub_cancel, Instr.wf]
  · simp only [Instr.wf, Config.carries_iff, hlen, Nat.add_le_add_iff_right]
  · rw [Instr.wf, Config.carries_iff]
    exact fun m hm => (payloadLength_le_of_fixed hkeyed hupdate).trans ((Config.wf_iff c).1 hc m hm)

end Sys2Proof

namespace Sys2Proof.Machine

open Sys2Proof.Claims

/-! ### One response per packet -/

/-- An outcome of a command in `s`: an error, or a successful response of at most 64 bytes after all responses `s` has
sent (R52). -/
def RespondsOnce (s : State) (o : Host.Outcome State Fault Refusal) : Prop :=
  (∃ e, o = .next (s.raise e)) ∨
  ∃ (u : State) (pay : List Byte), o = .next (u.respond .ok pay) ∧ u.rsps = s.rsps ∧ pay.length ≤ 64

theorem RespondsOnce.raise (s : State) (e : Status) : RespondsOnce s (.next (s.raise e)) := .inl ⟨e, rfl⟩

theorem RespondsOnce.respond {s u : State} {pay : List Byte} (hu : u.rsps = s.rsps) (hpay : pay.length ≤ 64) :
    RespondsOnce s (.next (u.respond .ok pay)) := .inr ⟨u, pay, rfl, hu, hpay⟩

theorem execInit_respondsOnce (ln : Bool) (pb : Bytes 64) (s : State) : RespondsOnce s (execInit ln pb s) := by
  unfold execInit
  split
  · exact .raise s _
  · split
    · exact .raise s _
    · exact .respond (by simp) (by simp)

theorem execInitKeyed_respondsOnce (outlen : Byte) (key : List Byte) (s : State) :
    RespondsOnce s (execInitKeyed outlen key s) := by
  unfold execInitKeyed
  split
  · exact .raise s _
  · split
    · exact .raise s _
    · refine .respond ?_ (by simp)
      rw [State.setPhase_rsps, State.absorbAll_rsps, State.stageKey_rsps, State.seed_rsps, State.stageBlock_rsps]

theorem execUpdate_respondsOnce (data : List Byte) (s : State) : RespondsOnce s (execUpdate data s) := by
  unfold execUpdate
  split
  · exact .raise s _
  · exact .respond (by simp) (by simp)

theorem execFinal_respondsOnce (cap : Byte) (s : State) : RespondsOnce s (execFinal cap s) := by
  unfold execFinal
  split
  · exact .raise s _
  · split
    · exact .raise s _
    · exact .respond (by simp) (by simp)

theorem execPbuild_respondsOnce (dl kl : Byte) (salt pers : Option (Bytes 16)) (s : State) :
    RespondsOnce s (execPbuild dl kl salt pers s) := by
  unfold execPbuild
  split
  · exact .raise s _
  · exact .respond (by simp) (by simp)

theorem exec_respondsOnce (i : Instr) (s : State) : RespondsOnce s (exec i s) := by
  cases i with
  | init ln pb => exact execInit_respondsOnce ln pb s
  | initKeyed outlen key => exact execInitKeyed_respondsOnce outlen key s
  | update data => exact execUpdate_respondsOnce data s
  | final cap => exact execFinal_respondsOnce cap s
  | wipe => exact .respond (by simp) (by simp)
  | pbuild dl kl salt pers => exact execPbuild_respondsOnce dl kl salt pers s
  | compress h block t0 t1 f0 f1 => exact .respond (by simp) (by simp)

/-- Settles O32: a refused packet and every command respond once, and their response is in the format of
`responsePacket_eq` (R52). -/
theorem oneResponsePerPacket : Obligations.OneResponsePerPacket := by
  intro s K rest hs
  have hstep : RespondsOnce s.takePacket (step s) := by
    cases hK : decode K with
    | error e => exact .inl ⟨_, step_of_decode_error hs hK⟩
    | ok i => exact step_of_decode_ok hs hK ▸ exec_respondsOnce i s.takePacket
  obtain ⟨e, he⟩ | ⟨u, pay, hu, hrsps, hpay⟩ := hstep
  · exact ⟨_, e.code, [], he, by simp, by simp, fun _ => rfl⟩
  · refine ⟨_, 0, pay, hu, ?_, hpay, fun h => absurd rfl h⟩
    rw [State.respond_rsps, hrsps, responsePacket_eq _ _ (by omega)]
    rfl

/-! ### A long `UPDATE` in pieces -/

theorem cutPieces_flatten (m cuts : Nat) (D : List Byte) : (cutPieces m cuts D).flatten = D := by
  induction cuts generalizing D with
  | zero => simp [cutPieces]
  | succ cuts ih =>
    rw [cutPieces]
    split
    · simp
    · rw [List.flatten_cons, ih, List.take_append_drop]

/-- `D.length` cuts are enough: each cut takes at least one byte. -/
theorem length_le_of_mem_cutPieces {m : Nat} (hm : 1 ≤ m) {cuts : Nat} {D : List Byte} (hD : D.length ≤ cuts)
    {P : List Byte} (hP : P ∈ cutPieces m cuts D) : P.length ≤ m := by
  induction cuts generalizing D with
  | zero =>
    obtain rfl : P = D := by simpa [cutPieces] using hP
    omega
  | succ cuts ih =>
    rw [cutPieces] at hP
    split at hP
    · obtain rfl : P = D := by simpa using hP
      omega
    · obtain rfl | hP := List.mem_cons.1 hP
      · exact List.length_take_le m D
      · exact ih (by rw [List.length_drop]; omega) hP

theorem cutPieces_eq_cons (m cuts : Nat) (D : List Byte) : ∃ P Ps, cutPieces m cuts D = P :: Ps := by
  cases cuts with
  | zero => exact ⟨D, [], rfl⟩
  | succ cuts =>
    rw [cutPieces]
    split
    · exact ⟨D, [], rfl⟩
    · exact ⟨_, _, rfl⟩

/-- The context after `UPDATE D`, in every phase (R105). -/
def State.updated (s : State) (D : List Byte) : Context :=
  if s.ctx.phase.isOpen then { (s.absorbAll D).ctx with phase := .absorbing } else s.ctx

theorem State.updated_of_isOpen {s : State} (hp : s.ctx.phase.isOpen = true) (D : List Byte) :
    s.updated D = { (s.absorbAll D).ctx with phase := .absorbing } := if_pos hp

theorem exec_update (s : State) (D : List Byte) :
    ∃ t, exec (.update D) s = .next t ∧ t.cmds = s.cmds ∧ t.ctx = s.updated D := by
  simp only [exec, execUpdate, State.updated]
  obtain ⟨hp, hc⟩ | ⟨hp, hc⟩ | ⟨hp, hc⟩ := phaseCheck_cases s.ctx.phase <;> rw [hc, hp]
  · exact ⟨_, rfl, rfl, rfl⟩
  · exact ⟨_, rfl, rfl, rfl⟩
  · exact ⟨_, rfl, by simp, by simp⟩

/-- Absorbing neither reads nor writes the phase (R104). -/
theorem State.absorbAll_ctx_of_ctx_withPhase {s t : State} {p : Phase} (h : t.ctx = { s.ctx with phase := p })
    (D : List Byte) : (t.absorbAll D).ctx = { (s.absorbAll D).ctx with phase := p } := by
  induction D generalizing s t with
  | nil => exact h
  | cons b D ih =>
    refine ih ?_
    rw [State.absorb_ctx, State.absorb_ctx, State.flush_ctx, State.flush_ctx, h]
    split <;> rfl

/-- `UPDATE X` then `UPDATE Y` leaves the context of `UPDATE (X ‖ Y)`, in every phase (R109). -/
theorem State.updated_updated {s t : State} {X : List Byte} (h : t.ctx = s.updated X) (Y : List Byte) :
    t.updated Y = s.updated (X ++ Y) := by
  by_cases hp : s.ctx.phase.isOpen = true
  · have ht : t.ctx = { (s.absorbAll X).ctx with phase := .absorbing } := h.trans (if_pos hp)
    have htp : t.ctx.phase.isOpen = true := by rw [ht]; rfl
    rw [State.updated_of_isOpen htp, State.updated_of_isOpen hp, State.absorbAll_append,
      State.absorbAll_ctx_of_ctx_withPhase ht Y]
  · have ht : t.ctx = s.ctx := h.trans (if_neg hp)
    rw [State.updated, State.updated, ht, if_neg hp, if_neg hp]

theorem State.updated_congr {s t : State} (h : s.ctx = t.ctx) (D : List Byte) : s.updated D = t.updated D := by
  rw [State.updated, State.updated, State.absorbAll_congr h, h]

theorem step_waiting_update (s : State) (P : List Byte) (rest : List (List Byte)) :
    ∃ t, step (waiting s (encode (.update P) :: rest)) = .next (waiting t rest) ∧ t.ctx = s.updated P := by
  obtain ⟨t, hexec, rfl, ht⟩ := exec_update (waiting s rest) P
  have hctx : (waiting s t.cmds).ctx = s.ctx := rfl
  exact ⟨t, (step_of_decode_ok rfl (decode_encode _)).trans hexec, ht.trans (State.updated_congr hctx P)⟩

/-- At least one `UPDATE` packet, one after the other, leaves the context of one `UPDATE` of all their data (R109). -/
theorem run_updates (s : State) (P : List Byte) (Ps : List (List Byte)) :
    ∃ t, Host.Core.run Sys2Proof.core (P :: Ps).length (waiting s ((P :: Ps).map fun X => encode (.update X)))
        = .next t ∧
      t.ctx = s.updated (P :: Ps).flatten := by
  induction Ps generalizing s P with
  | nil =>
    obtain ⟨t, hstep, ht⟩ := step_waiting_update s P []
    exact ⟨_, run_succ_of_step hstep 0, ht.trans (congrArg s.updated (List.append_nil P).symm)⟩
  | cons Q Ps ih =>
    obtain ⟨t, hstep, ht⟩ := step_waiting_update s P ((Q :: Ps).map fun X => encode (.update X))
    obtain ⟨u, hrun, hu⟩ := ih t Q
    exact ⟨u, (run_succ_of_step hstep _).trans hrun, hu.trans (State.updated_updated ht _)⟩

/-- Settles O46: the pieces hold the data in order and are bounded by the cut, and running them leaves the context of
one `UPDATE`, by `State.updated_updated` along the run (R60, R109). -/
theorem longUpdateIsCutIntoPieces : Obligations.LongUpdateIsCutIntoPieces := by
  intro m D s hm
  refine ⟨cutPieces m D.length D, rfl, cutPieces_flatten m _ D, fun P hP => length_le_of_mem_cutPieces hm le_rfl hP, ?_⟩
  obtain ⟨P, Ps, hcut⟩ := cutPieces_eq_cons m D.length D
  obtain ⟨t, hrun, ht⟩ := run_updates s P Ps
  obtain ⟨u, hexec, -, hu⟩ := exec_update s D
  rw [← hcut] at hrun ht
  exact ⟨t, u, hrun, hexec, by rw [ht, hu, cutPieces_flatten]⟩

end Sys2Proof.Machine
end
section
/-! The codec and the rotates (spec/40_codec.md R70 to R79, R82). The four loads are one load of `n` bytes at `n` = 2, 4,
6 and 8, the four stores one store, and the two rotates one pair of shifts, so each fact is proved once for every
width. -/

namespace Sys2Proof.Machine

/-! ### Loads and stores of any number of bytes -/

/-- The load of `n` bytes: each load of the model is one of its instances (R70 to R73). -/
def loadBytes {n : Nat} (B : Bytes n) : BitVec (8 * n) := BitVec.ofNat (8 * n) (bytesToNat B.toList)

/-- The store of `n` bytes: each store of the model is one of its instances (R74 to R77). -/
def storeBytes {n : Nat} (x : BitVec (8 * n)) : Bytes n := ⟨⟨natToBytes n x.toNat⟩, natToBytes_length n _⟩

theorem load16_eq_loadBytes (B : Bytes 2) : load16 B = loadBytes B := rfl
theorem load32_eq_loadBytes (B : Bytes 4) : load32 B = loadBytes B := rfl
theorem load48_eq_loadBytes (B : Bytes 6) : load48 B = loadBytes B := rfl
theorem load64_eq_loadBytes (B : Bytes 8) : load64 B = loadBytes B := rfl

theorem store16_eq_storeBytes (x : BitVec 16) : store16 x = storeBytes (n := 2) x := rfl
theorem store32_eq_storeBytes (x : BitVec 32) : store32 x = storeBytes (n := 4) x := rfl
theorem store48_eq_storeBytes (x : BitVec 48) : store48 x = storeBytes (n := 6) x := rfl
theorem store64_eq_storeBytes (x : Word) : store64 x = storeBytes (n := 8) x := rfl

section
variable {n : Nat}

@[simp] theorem storeBytes_toList (x : BitVec (8 * n)) : (storeBytes x).toList = natToBytes n x.toNat := rfl

/-- A load loses nothing: `n` bytes fit in `8n` bits. -/
@[simp] theorem loadBytes_toNat (B : Bytes n) : (loadBytes B).toNat = bytesToNat B.toList := by
  have hlt : bytesToNat B.toList < 2 ^ (8 * n) := by simpa [bytePow_eq] using bytesToNat_lt B.toList
  rw [loadBytes, BitVec.toNat_ofNat, Nat.mod_eq_of_lt hlt]

theorem loadBytes_storeBytes (x : BitVec (8 * n)) : loadBytes (storeBytes x) = x := by
  apply BitVec.eq_of_toNat_eq
  rw [loadBytes_toNat, storeBytes_toList, bytesToNat_natToBytes, bytePow_eq, Nat.mod_eq_of_lt x.isLt]

theorem storeBytes_loadBytes (B : Bytes n) : storeBytes (loadBytes B) = B := by
  apply Vector.toList_inj.1
  rw [storeBytes_toList, loadBytes_toNat]
  simpa using natToBytes_bytesToNat B.toList

/-- A load is the sum of its bytes: it reads a byte space from its first byte to its last (R32, R70 to R73). -/
theorem loadBytes_toNat_eq_sum (B : Bytes n) :
    (loadBytes B).toNat = ((List.finRange n).map fun k => B[k].toNat * 2 ^ (8 * k.val)).sum := by
  have hread : memRead B 0 n (by omega) = bytesToNat B.toList := by
    simp [memRead, List.take_of_length_le]
  rw [loadBytes_toNat, ← hread, memRead_eq_sum]
  simp

/-- The codec divides by a power of 256 where the spec names a field of bits: both shift right by `8k` (R74 to R77). -/
theorem storeBytes_getElem (x : BitVec (8 * n)) (k : Fin n) : (storeBytes x)[k] = x.extractLsb' (8 * k.val) 8 := by
  have hbyte : (storeBytes x)[k] = BitVec.ofNat 8 (x.toNat / 256 ^ k.val) := natToBytes_getElem n x.toNat k _
  rw [hbyte, bytePow_eq, ← Nat.shiftRight_eq_div_pow, BitVec.extractLsb']

end

/-- Settles O13: `loadBytes` and `storeBytes` are inverse at every number of bytes (R82). -/
theorem codecRoundTrips : Obligations.CodecRoundTrips := by
  refine ⟨fun x => ?_, fun B => ?_, fun x => ?_, fun B => ?_, fun x => ?_, fun B => ?_, load64_store64, store64_load64⟩
  · rw [store16_eq_storeBytes, load16_eq_loadBytes, loadBytes_storeBytes]
  · rw [load16_eq_loadBytes, store16_eq_storeBytes, storeBytes_loadBytes]
  · rw [store32_eq_storeBytes, load32_eq_loadBytes, loadBytes_storeBytes]
  · rw [load32_eq_loadBytes, store32_eq_storeBytes, storeBytes_loadBytes]
  · rw [store48_eq_storeBytes, load48_eq_loadBytes, loadBytes_storeBytes]
  · rw [load48_eq_loadBytes, store48_eq_storeBytes, storeBytes_loadBytes]

/-- Settles O11: `loadBytes_toNat_eq_sum` at the four lengths, written out for two and four bytes (R70 to R73). -/
theorem loadsAreLittleEndian : Obligations.LoadsAreLittleEndian := by
  refine ⟨fun B => ?_, fun B => ?_, fun B => ?_, fun B => ?_⟩
  · rw [load16_eq_loadBytes, loadBytes_toNat_eq_sum]
    simp [List.finRange_succ, Nat.mul_comm]
  · rw [load32_eq_loadBytes, loadBytes_toNat_eq_sum]
    simp [List.finRange_succ, Nat.mul_comm, Nat.add_assoc]
  · rw [load48_eq_loadBytes, loadBytes_toNat_eq_sum]
  · rw [load64_eq_loadBytes, loadBytes_toNat_eq_sum]

/-- Settles O12: `storeBytes_getElem` at the four lengths (R74 to R77). -/
theorem storesAreLittleEndian : Obligations.StoresAreLittleEndian := by
  refine ⟨fun x k => ?_, fun x k => ?_, fun x k => ?_, fun x k => ?_⟩
  · rw [store16_eq_storeBytes, storeBytes_getElem]
  · rw [store32_eq_storeBytes, storeBytes_getElem]
  · rw [store48_eq_storeBytes, storeBytes_getElem]
  · rw [store64_eq_storeBytes, storeBytes_getElem]

/-! ### Rotates -/

/-- The two shifts of a rotate do not overlap: bits below `n - c` come from the right shift, the others have wrapped
around and come from the left shift. -/
theorem getLsbD_shiftRight_or_shiftLeft {n : Nat} (w : BitVec n) (c i : Fin n) :
    (w >>> c.val ||| w <<< (n - c.val)).getLsbD i.val = w.getLsbD ((i.val + c.val) % n) := by
  have hc := c.isLt
  have hi := i.isLt
  rw [BitVec.getLsbD_or, BitVec.getLsbD_ushiftRight, BitVec.getLsbD_shiftLeft, Nat.add_comm c.val]
  by_cases hwrap : i.val + c.val < n
  · have hlow : i.val < n - c.val := by omega
    rw [Nat.mod_eq_of_lt hwrap]
    simp [hlow]
  · have hhigh : ¬ i.val < n - c.val := by omega
    have hbit : (i.val + c.val) % n = i.val - (n - c.val) := by
      rw [Nat.mod_eq_sub_mod (by omega), Nat.mod_eq_of_lt (by omega)]
      omega
    rw [BitVec.getLsbD_of_ge w _ (by omega), hbit]
    simp [hhigh]

/-- The case of count 0, which the model leaves as it is, is the same pair of shifts (R78). -/
theorem rotr32_eq_shifts (w : BitVec 32) (c : Fin 32) : rotr32 w c = w >>> c.val ||| w <<< (32 - c.val) := by
  unfold rotr32
  split
  · next hc => simp [hc]
  · rfl

theorem rotr64_eq_shifts (w : Word) (c : Fin 64) : rotr64 w c = w >>> c.val ||| w <<< (64 - c.val) := by
  unfold rotr64
  split
  · next hc => simp [hc]
  · rfl

/-- Settles O14: both rotates are the pair of shifts of `getLsbD_shiftRight_or_shiftLeft` (R78, R79). -/
theorem rotatesMoveBits : Obligations.RotatesMoveBits := by
  refine ⟨fun w c i => ?_, fun w c i => ?_⟩
  · rw [rotr32_eq_shifts, getLsbD_shiftRight_or_shiftLeft]
  · rw [rotr64_eq_shifts, getLsbD_shiftRight_or_shiftLeft]

end Sys2Proof.Machine
end
section
/-! The parameter block and its builder (spec/41_param_block.md R90 to R93). `buildBlock_toList` gives the 64 bytes the
builder's writes leave, `build_eq` the builder with its failures in order, and the two `execPbuild_of_build_eq` lemmas
what `PBUILD` answers. -/

namespace Sys2Proof.Machine

open Sys2Proof.Claims

/-! ### The bytes of the block -/

/-- A write of one byte sets that byte (R32). -/
theorem memWrite_one {N : Nat} (S : Bytes N) (a x : Nat) (h : a + 1 ≤ N) :
    memWrite S a 1 x h = S.set a (BitVec.ofNat 8 x) := by
  ext j hj : 1
  rw [memWrite_getElem, Vector.getElem_set]
  by_cases hja : a = j
  · simp [hja]
  · rw [if_neg (by omega), if_neg hja]

/-- The first four writes of the builder, on the zeros of `PB` (R93). -/
theorem blockHeader_toList (dl kl : Byte) :
    (memWrite (memWrite (memWrite (memWrite (Vector.replicate 64 0 : Bytes 64) 0 1 dl.toNat (by omega))
      1 1 kl.toNat (by omega)) 2 1 1 (by omega)) 3 1 1 (by omega)).toList = [dl, kl, 1, 1] ++ List.replicate 60 0 := by
  simp only [memWrite_one, BitVec.ofNat_toNat, BitVec.setWidth_eq]
  rfl

/-- A field write replaces 16 bytes of its block (R93). -/
theorem writeField_toList (S : Bytes 64) (a : Nat) (h : a + 16 ≤ 64) (B : Bytes 16) :
    (writeField S a h B).toList = S.toList.take a ++ B.toList ++ S.toList.drop (a + 16) := by
  apply List.ext_getElem
  · simp
    omega
  intro j hj _
  rw [Vector.length_toList] at hj
  rw [Vector.getElem_toList, writeField_getElem]
  by_cases hfront : j < a
  · rw [dif_neg (by omega), List.getElem_append_left (by simp; omega), List.getElem_append_left (by simp; omega)]
    simp
  by_cases hfield : j < a + 16
  · rw [dif_pos (by omega), List.getElem_append_left (by simp; omega), List.getElem_append_right (by simp; omega)]
    simp [show min a 64 = a by omega]
  · rw [dif_neg (by omega), List.getElem_append_right (by simp; omega)]
    simp [show a + 16 + (j - (min a 64 + 16)) = j by omega]

/-- An optional field written over zeros holds its bytes, or zeros where it is absent (R93). -/
theorem writeOptionalField_toList {S : Bytes 64} {front back : List Byte}
    (hS : S.toList = front ++ List.replicate 16 0 ++ back) {a : Nat} (ha : front.length = a) (h : a + 16 ≤ 64)
    (B : Option (Bytes 16)) :
    (writeOptionalField S a h B).toList = front ++ B.elim (List.replicate 16 0) Vector.toList ++ back := by
  cases B with
  | none => exact hS
  | some B =>
    subst ha
    rw [writeOptionalField, writeField_toList, hS]
    simp

/-- The writes of the builder hold the layout: each of the two fields is written over zeros (R90, R93). -/
theorem buildBlock_toList (dl kl : Byte) (salt pers : Option (Bytes 16)) :
    (buildBlock dl kl salt pers).toList = blockBytes dl kl salt pers := by
  have hsalt := writeOptionalField_toList (front := [dl, kl, 1, 1] ++ List.replicate 28 0)
    (back := List.replicate 16 0) (blockHeader_toList dl kl) (a := 32) rfl (by omega) salt
  have hlen : ([dl, kl, 1, 1] ++ List.replicate 28 0 ++ salt.elim (List.replicate 16 0) Vector.toList).length = 48 := by
    cases salt <;> simp
  have hpers := writeOptionalField_toList (back := []) (hsalt.trans (List.append_nil _).symm) hlen (by omega) pers
  exact hpers.trans (List.append_nil _)

/-! ### The builder's checks -/

theorem not_digestLengthOk_iff (n : Byte) : (!digestLengthOk n) = true ↔ n.toNat = 0 ∨ 64 < n.toNat := by
  rw [Bool.not_eq_true', ← Bool.not_eq_true, digestLengthOk_iff]
  omega

theorem not_keyLengthOk_iff (n : Byte) : (!keyLengthOk n) = true ↔ 64 < n.toNat := by
  rw [Bool.not_eq_true', ← Bool.not_eq_true, keyLengthOk_iff, not_le]

/-- The builder tests the digest length first (R92). -/
theorem build_eq (dl kl : Byte) (salt pers : Option (Bytes 16)) :
    build dl kl salt pers =
      if dl.toNat = 0 ∨ 64 < dl.toNat then .error .invalidDigestLength
      else if 64 < kl.toNat then .error .invalidKeyLength
      else .ok (buildBlock dl kl salt pers) := by
  simp only [build, not_digestLengthOk_iff, not_keyLengthOk_iff]

/-! ### The answers of `PBUILD` -/

/-- A response in the format of R52, from a command that leaves the context as it is. -/
theorem State.respond_eq_answered (s : State) (st : Status) {pay : List Byte} (h : pay.length < 256) :
    s.respond st pay = answered s st.code pay := by
  rw [State.respond, responsePacket_eq st pay h]
  rfl

theorem State.raise_eq_answered (s : State) (e : Status) : s.raise e = answered s e.code [] :=
  s.respond_eq_answered e (by simp)

theorem execPbuild_of_build_eq_error {dl kl : Byte} {salt pers : Option (Bytes 16)} {e : Status}
    (h : build dl kl salt pers = .error e) (s : State) :
    execPbuild dl kl salt pers s = .next (answered s e.code []) := by
  rw [execPbuild, h, ← State.raise_eq_answered]

/-- The block goes through `PB`, which the response leaves zero again (R93, R111). -/
theorem execPbuild_of_build_eq_ok {dl kl : Byte} {salt pers : Option (Bytes 16)} {P : Bytes 64}
    (h : build dl kl salt pers = .ok P) (s : State) :
    execPbuild dl kl salt pers s = .next (answered s 0 P.toList) := by
  rw [execPbuild, h]
  exact congrArg _ ((s.stageBlock P).respond_eq_answered .ok (by simp))

end Sys2Proof.Machine

namespace Sys2Proof

open Machine Claims

/-- Settles O21: the packet is the one the encoder gives, and each branch of `build_eq` has its answer (R92, R93). -/
theorem pbuildAnswersBlock : Obligations.PbuildAnswersBlock := by
  intro s dl kl salt pers
  refine ⟨?_, ?_⟩
  · rw [← optionBytes_eq_elim, ← optionBytes_eq_elim]
    exact decode_encode (.pbuild dl kl salt pers)
  have hbuild := build_eq dl kl salt pers
  rw [exec]
  split
  · next hdl => exact execPbuild_of_build_eq_error (by rw [hbuild, if_pos hdl]) s
  · next hdl =>
    rw [if_neg hdl] at hbuild
    split
    · next hkl => exact execPbuild_of_build_eq_error (by rw [hbuild, if_pos hkl]) s
    · next hkl =>
      rw [if_neg hkl] at hbuild
      rw [execPbuild_of_build_eq_ok hbuild, buildBlock_toList]

end Sys2Proof
end
section
/-! The counter and the lazy buffer (spec/42_hash_state_machine.md R101, R104, R110). A counter and a buffer are read as
what they stand for, a byte count and the list `Context.valid`; then `ABSORB` appends a byte or flushes a whole block,
and `Context.Holds` ties the registers to the three results of `foldBlocks`. -/

namespace Sys2Proof.Machine

open Sys2Proof.Claims

/-! ### The counter -/

theorem count_withCount (c : Context) (m : Nat) : count (withCount c m) = m % 2 ^ 128 := by
  simp only [count, withCount, BitVec.toNat_ofNat]
  omega

/-- The two words are the low and the high half of the count (R12). -/
theorem count_eq_mod_iff (c : Context) (n : Nat) :
    count c = n % 2 ^ 128 ↔ c.t0 = countLow n ∧ c.t1 = countHigh n := by
  have h0 := c.t0.isLt
  have h1 := c.t1.isLt
  simp only [count, ← BitVec.toNat_inj, countLow, countHigh, BitVec.toNat_ofNat]
  omega

/-- The carry of R101 is taken exactly when the low word wraps. -/
theorem Context.inc_eq_withCount (c : Context) (n : Word) : c.inc n = withCount c (count c + n.toNat) := by
  have h0 := c.t0.isLt
  have h1 := c.t1.isLt
  have hn := n.isLt
  have hlow : (add64 c.t0 n).toNat = (c.t0.toNat + n.toNat) % 2 ^ 64 := BitVec.toNat_add _ _
  have hhigh : (add64 c.t1 1).toNat = (c.t1.toNat + 1) % 2 ^ 64 := BitVec.toNat_add _ _
  simp only [Context.inc, withCount, Context.mk.injEq, true_and, and_true]
  constructor
  · apply BitVec.eq_of_toNat_eq
    rw [hlow, BitVec.toNat_ofNat, count]
    omega
  · apply BitVec.eq_of_toNat_eq
    simp only [BitVec.toNat_ofNat, count, BitVec.lt_def, hlow]
    split
    · rw [hhigh]
      omega
    · omega

theorem Context.count_inc (c : Context) (n : Word) : count (c.inc n) = (count c + n.toNat) % 2 ^ 128 := by
  rw [Context.inc_eq_withCount, count_withCount]

/-- Settles O17: `INC` is the addition on the count, and the counter words are its two halves (R101). -/
theorem counterAddsModulo : Obligations.CounterAddsModulo :=
  fun c n => ⟨c.count_inc n, c.inc_eq_withCount n⟩

/-! ### The buffer -/

/-- The valid bytes of the buffer (R14). -/
def Context.valid (c : Context) : List Byte := c.buf.toList.take c.buflen.toNat

theorem Context.valid_length {c : Context} (hc : c.buflen.toNat ≤ 128) : c.valid.length = c.buflen.toNat := by
  simpa [Context.valid] using hc

theorem Context.valid_getD (c : Context) (i : Nat) (hi : i < 128) (hlt : i < c.buflen.toNat) :
    c.valid.getD i 0 = c.buf[i] := by
  rw [List.getD_eq_getElem _ _ (by simp [Context.valid]; omega)]
  simp [Context.valid]

theorem Context.valid_eq_nil {c : Context} (hc : c.buflen = 0) : c.valid = [] := by simp [Context.valid, hc]

/-- Padding the buffer is padding its valid bytes to a block (R106). -/
theorem Context.padBuffer_buf_eq (c : Context) : c.padBuffer.buf = padBlock c.valid := by
  rw [Context.padBuffer_buf, padBlock]
  congr 1
  funext i
  split
  · next hle => exact (List.getD_eq_default _ _ (by simp [Context.valid]; omega)).symm
  · next hlt => exact (c.valid_getD i i.isLt (by omega)).symm

/-- A full buffer needs no padding (R106). -/
theorem Context.buf_eq_of_full {c : Context} (hc : c.buflen = 128) : c.buf = padBlock c.valid := by
  rw [← Context.padBuffer_buf_eq, Context.padBuffer_buf]
  ext i hi : 1
  have hlt : ¬ c.buflen.toNat ≤ i := by rw [hc]; exact Nat.not_le.2 hi
  simp [hlt]

theorem Context.valid_putByte {c : Context} (hc : c.buflen.toNat < 128) (b : Byte) :
    (c.putByte b).valid = c.valid ++ [b] := by
  rw [Context.valid, Context.putByte_buflen, toNat_succ_of_lt hc, Context.putByte_buf, Vector.toList_setIfInBounds,
    List.take_add_one, List.take_set_of_le le_rfl]
  simp [Context.valid, hc]

/-! ### `ABSORB` on a buffer with room and on a full one -/

theorem State.absorb_ctx_of_room {s : State} (hs : s.ctx.buflen.toNat < 128) (b : Byte) :
    (s.absorb b).ctx = s.ctx.putByte b := by
  have hne : s.ctx.buflen ≠ 128 := fun h => by simp [h] at hs
  rw [State.absorb_ctx, if_neg hne]

theorem State.absorb_ctx_of_full {s : State} (hs : s.ctx.buflen = 128) (b : Byte) :
    (s.absorb b).ctx = s.flush.ctx.putByte b := by
  rw [State.absorb_ctx, if_pos hs]

theorem Context.buflen_eq_of_not_lt {c : Context} (hc : c.buflen.toNat ≤ 128) (hfull : ¬ c.buflen.toNat < 128) :
    c.buflen = 128 := BitVec.eq_of_toNat_eq (Nat.le_antisymm hc (Nat.not_lt.1 hfull))

/-- The flush as the rule writes it (R104). -/
theorem State.flush_ctx_eq_flushed (s : State) : s.flush.ctx = flushed s.ctx := by
  rw [State.flush_ctx, Context.inc_eq_withCount]
  rfl

/-- A byte put where there is room, entry by entry (R104). -/
theorem Context.putByte_eq {c : Context} (hc : c.buflen.toNat < 128) (b : Byte) : c.putByte b =
    { c with
      buf := Vector.ofFn fun i => if i.val = c.buflen.toNat then b else c.buf[i]
      buflen := BitVec.ofNat 8 (c.buflen.toNat + 1) } := by
  have hbuf : c.buf.setIfInBounds c.buflen.toNat b
      = Vector.ofFn fun i : Fin 128 => if i.val = c.buflen.toNat then b else c.buf[i] := by
    ext i hi : 1
    simp [Vector.getElem_setIfInBounds, eq_comm]
  have hlen : c.buflen + 1 = BitVec.ofNat 8 (c.buflen.toNat + 1) := by
    rw [← toNat_succ_of_lt hc, BitVec.ofNat_toNat, BitVec.setWidth_eq]
  rw [Context.putByte, hbuf, hlen]

/-- `ABSORB` as the rule writes it, wherever R18 holds (R104). -/
theorem State.absorb_ctx_eq_absorbed {s : State} (hs : s.ctx.buflen.toNat ≤ 128) (b : Byte) :
    (s.absorb b).ctx = absorbed s.ctx b := by
  rw [absorbed]
  by_cases hroom : s.ctx.buflen.toNat < 128
  · rw [State.absorb_ctx_of_room hroom, if_neg (by omega), Context.putByte_eq hroom]
  · have hfull := Context.buflen_eq_of_not_lt hs hroom
    rw [State.absorb_ctx_of_full hfull, if_pos (by omega), State.flush_ctx_eq_flushed,
      Context.putByte_eq (show (flushed s.ctx).buflen.toNat < 128 from Nat.zero_lt_succ 127)]

/-- Data that fit in the buffer are put byte by byte, and nothing is flushed (R104). -/
theorem State.absorbAll_ctx_of_fits {s : State} {D : List Byte} (hD : s.ctx.buflen.toNat + D.length ≤ 128) :
    (s.absorbAll D).ctx = D.foldl Context.putByte s.ctx := by
  induction D generalizing s with
  | nil => rfl
  | cons b D ih =>
    rw [List.length_cons] at hD
    have hctx := State.absorb_ctx_of_room (s := s) (by omega) b
    rw [State.absorbAll_cons, ih, hctx, List.foldl_cons]
    rw [hctx, Context.putByte_buflen, toNat_succ_of_lt (by omega)]
    omega

/-- Of the chaining words, the counter and the buffer, bytes that fit write the part of the buffer they fill (R104). -/
theorem Context.foldl_putByte_frame (c : Context) (D : List Byte) (hD : c.buflen.toNat + D.length ≤ 128) :
    (D.foldl Context.putByte c).h = c.h ∧ (D.foldl Context.putByte c).t0 = c.t0 ∧
    (D.foldl Context.putByte c).t1 = c.t1 ∧
    ∀ j : Fin 128, ¬ (c.buflen.toNat ≤ j.val ∧ j.val < c.buflen.toNat + D.length) →
      (D.foldl Context.putByte c).buf[j] = c.buf[j] := by
  induction D generalizing c with
  | nil => simp
  | cons b D ih =>
    rw [List.length_cons] at hD
    have hlen : (c.putByte b).buflen.toNat = c.buflen.toNat + 1 := by
      rw [Context.putByte_buflen, toNat_succ_of_lt (by omega)]
    obtain ⟨hh, ht0, ht1, hbuf⟩ := ih (c.putByte b) (by omega)
    refine ⟨by simpa using hh, by simpa using ht0, by simpa using ht1, fun j hj => ?_⟩
    rw [List.length_cons] at hj
    rw [List.foldl_cons, hbuf j (by omega), Fin.getElem_fin, Fin.getElem_fin]
    simp only [Context.putByte_buf]
    rw [Vector.getElem_setIfInBounds_ne _ (by omega)]

theorem State.absorbAll_buf_of_fits {s : State} {D : List Byte} (hD : s.ctx.buflen.toNat + D.length ≤ 128)
    (j : Fin 128) (hj : ¬ (s.ctx.buflen.toNat ≤ j.val ∧ j.val < s.ctx.buflen.toNat + D.length)) :
    (s.absorbAll D).ctx.buf[j] = s.ctx.buf[j] := by
  obtain ⟨-, -, -, hbuf⟩ := s.ctx.foldl_putByte_frame D hD
  rw [State.absorbAll_ctx_of_fits hD, hbuf j hj]

theorem State.absorbAll_outlen (s : State) (D : List Byte) : (s.absorbAll D).ctx.outlen = s.ctx.outlen := by
  obtain ⟨-, -, hout, -⟩ := s.absorbAll_frame D
  exact hout

theorem State.absorbAll_lastNode (s : State) (D : List Byte) : (s.absorbAll D).ctx.lastNode = s.ctx.lastNode := by
  obtain ⟨-, -, -, hln, -⟩ := s.absorbAll_frame D
  exact hln

/-! ### Blocks -/

theorem foldBlocks_of_length_le (fuel : Nat) (h : Vector Word 8) (n : Nat) {D : List Byte} (hD : D.length ≤ 128) :
    foldBlocks fuel h n D = (h, n, D) := by
  cases fuel with
  | zero => rfl
  | succ fuel => rw [foldBlocks, if_pos hD]

/-- A whole block with something behind it is compressed at its own count (R110). -/
theorem foldBlocks_block_append (fuel : Nat) (h : Vector Word 8) (n : Nat) {B D : List Byte} (hB : B.length = 128)
    (hD : D ≠ []) : foldBlocks (fuel + 1) h n (B ++ D) =
      foldBlocks fuel (transformF h (padBlock B) (countLow (n + 128)) (countHigh (n + 128)) 0 0) (n + 128) D := by
  have hpos := List.length_pos_iff.2 hD
  rw [foldBlocks, if_neg (by rw [List.length_append]; omega), List.take_left' hB, List.drop_left' hB]

/-- The number of blocks that are followed by a further byte, and what they leave (R110). -/
theorem foldBlocks_snd (fuel : Nat) (h : Vector Word 8) (n : Nat) (D : List Byte) (hD : D.length ≤ fuel) :
    (foldBlocks fuel h n D).2 = (n + 128 * ((D.length - 1) / 128), D.drop (128 * ((D.length - 1) / 128))) := by
  induction fuel generalizing h n D with
  | zero => simp [foldBlocks, List.length_eq_zero_iff.1 (Nat.le_zero.1 hD)]
  | succ fuel ih =>
    rw [foldBlocks]
    split
    · have hc : (D.length - 1) / 128 = 0 := by omega
      simp [hc]
    · have hc : (D.length - 1) / 128 = (D.length - 128 - 1) / 128 + 1 := by omega
      rw [ih _ _ _ (by rw [List.length_drop]; omega), List.length_drop, List.drop_drop, hc]
      ring_nf

/-! ### What the registers hold of the bytes absorbed -/

/-- The registers of a session hold these chaining words, this count of compressed bytes and these pending bytes. -/
structure Context.Holds (c : Context) (h : Vector Word 8) (n : Nat) (pending : List Byte) : Prop where
  h_eq : c.h = h
  count_eq : count c = n % 2 ^ 128
  valid_eq : c.valid = pending
  buflen_le : c.buflen.toNat ≤ 128
  f0_eq : c.f0 = 0
  f1_eq : c.f1 = 0

section
variable {c : Context} {h : Vector Word 8} {n : Nat} {V : List Byte}

theorem Context.Holds.length_eq (hc : c.Holds h n V) : V.length = c.buflen.toNat := by
  rw [← hc.valid_eq, Context.valid_length hc.buflen_le]

theorem Context.Holds.putByte (hc : c.Holds h n V) (hV : V.length < 128) (b : Byte) :
    (c.putByte b).Holds h n (V ++ [b]) where
  h_eq := by simpa using hc.h_eq
  count_eq := by simpa [count] using hc.count_eq
  valid_eq := by rw [Context.valid_putByte (hc.length_eq ▸ hV), hc.valid_eq]
  buflen_le := by
    rw [hc.length_eq] at hV
    rw [Context.putByte_buflen, toNat_succ_of_lt hV]
    omega
  f0_eq := by simpa using hc.f0_eq
  f1_eq := by simpa using hc.f1_eq

end

/-- A flush compresses the pending block at the count of its last byte (R104). -/
theorem State.holds_flush {s : State} {h : Vector Word 8} {n : Nat} {V : List Byte} (hs : s.ctx.Holds h n V)
    (hfull : s.ctx.buflen = 128) :
    s.flush.ctx.Holds (transformF h (padBlock V) (countLow (n + 128)) (countHigh (n + 128)) 0 0) (n + 128) [] := by
  have hcount : count (s.ctx.inc 128) = (n + 128) % 2 ^ 128 := by
    rw [Context.count_inc, hs.count_eq, show (128 : Word).toNat = 128 from rfl, Nat.mod_add_mod]
  obtain ⟨hlow, hhigh⟩ := (count_eq_mod_iff _ _).1 hcount
  rw [State.flush_ctx, hlow, hhigh, hs.h_eq, hs.f0_eq, hs.f1_eq, Context.buf_eq_of_full hfull, hs.valid_eq]
  exact ⟨rfl, hcount, Context.valid_eq_nil rfl, by simp, hs.f0_eq, hs.f1_eq⟩

/-- Absorbing folds the blocks of the pending bytes and the data (R110). -/
theorem State.holds_absorbAll {s : State} {h : Vector Word 8} {n : Nat} {V : List Byte} (hs : s.ctx.Holds h n V)
    (D : List Byte) {fuel : Nat} (hfuel : (V ++ D).length ≤ fuel) :
    (s.absorbAll D).ctx.Holds (foldBlocks fuel h n (V ++ D)).1 (foldBlocks fuel h n (V ++ D)).2.1
      (foldBlocks fuel h n (V ++ D)).2.2 := by
  induction D generalizing s h n V fuel with
  | nil =>
    rw [List.append_nil, foldBlocks_of_length_le _ _ _ (hs.length_eq ▸ hs.buflen_le)]
    exact hs
  | cons b D ih =>
    rw [State.absorbAll_cons]
    by_cases hroom : V.length < 128
    · have hput := hs.putByte hroom b
      rw [← State.absorb_ctx_of_room (hs.length_eq ▸ hroom)] at hput
      simpa using ih hput (by simpa using hfuel)
    · have hlen := hs.length_eq
      have hfull := Context.buflen_eq_of_not_lt hs.buflen_le (hlen ▸ hroom)
      have hput := (State.holds_flush hs hfull).putByte (by simp) b
      rw [← State.absorb_ctx_of_full hfull] at hput
      obtain ⟨fuel, rfl⟩ : ∃ m, fuel = m + 1 := ⟨fuel - 1, by simp at hfuel; omega⟩
      rw [foldBlocks_block_append _ _ _ (by rw [hlen, hfull]; rfl) (by simp)]
      exact ih hput (by simp at hfuel ⊢; omega)

/-- With the bytes of the data counted: the registers after `D`, the pending bytes and the data (R110). -/
theorem State.holds_absorbAll_drop {s : State} {h : Vector Word 8} {n : Nat} {V : List Byte} (hs : s.ctx.Holds h n V)
    {X D : List Byte} (hD : D = V ++ X) :
    (s.absorbAll X).ctx.Holds (foldBlocks D.length h n D).1 (n + 128 * ((D.length - 1) / 128))
      (D.drop (128 * ((D.length - 1) / 128))) := by
  subst hD
  have hX := State.holds_absorbAll hs X le_rfl
  rwa [foldBlocks_snd _ _ _ _ le_rfl] at hX

/-- The byte that flushes a full buffer, and those behind it that fit, leave its other bytes stale (R14, R104). -/
theorem State.absorbAll_cons_buf_of_full {s : State} (hs : s.ctx.buflen = 128) (b : Byte) {D : List Byte}
    (i : Fin 128) (hi : D.length < i.val) : (s.absorbAll (b :: D)).ctx.buf[i] = s.ctx.buf[i] := by
  have hctx := State.absorb_ctx_of_full hs b
  have hone : (s.absorb b).ctx.buflen.toNat = 1 := by rw [hctx]; simp
  have hfits : (s.absorb b).ctx.buflen.toNat + D.length ≤ 128 := by omega
  rw [State.absorbAll_cons, State.absorbAll_buf_of_fits hfits i (by omega), hctx, Fin.getElem_fin, Fin.getElem_fin]
  simp only [Context.putByte_buf, State.flush_ctx, Context.inc_buf]
  exact Vector.getElem_setIfInBounds_ne _ (by simp; omega)

/-- The stale bytes are those of the last block flushed, which was full: the bytes behind it fit (R14, R110). -/
theorem State.absorbAll_stale {s : State} {h : Vector Word 8} {n : Nat} {V : List Byte} (hs : s.ctx.Holds h n V)
    {X D : List Byte} (hD : D = V ++ X) {c : Nat} (hc : c = (D.length - 1) / 128) (i : Fin 128)
    (hi : D.length - 128 * c ≤ i.val) :
    (s.absorbAll X).ctx.buf[i] = if c = 0 then s.ctx.buf[i] else D.getD (128 * (c - 1) + i.val) 0 := by
  have hlen := hs.length_eq
  have hle := hs.buflen_le
  have hDlen : D.length = V.length + X.length := by rw [hD, List.length_append]
  split
  · next hc0 =>
    have hfits : s.ctx.buflen.toNat + X.length ≤ 128 := by omega
    exact State.absorbAll_buf_of_fits hfits i (by omega)
  · next hc0 =>
    obtain ⟨Y, b, Z, rfl, hY⟩ : ∃ Y b Z, X = Y ++ b :: Z ∧ (V ++ Y).length = 128 * c := by
      refine ⟨X.take (128 * c - V.length), X[128 * c - V.length]'(by omega), X.drop (128 * c - V.length + 1),
        ?_, ?_⟩
      · rw [← List.drop_eq_getElem_cons, List.take_append_drop]
      · rw [List.length_append, List.length_take]
        omega
    have hblock := State.holds_absorbAll_drop hs (X := Y) rfl
    rw [hY, show (128 * c - 1) / 128 = c - 1 by omega] at hblock
    have hfull : (s.absorbAll Y).ctx.buflen.toNat = 128 := by
      rw [← hblock.length_eq, List.length_drop, hY]
      omega
    rw [List.length_append] at hY
    rw [List.length_append, List.length_cons] at hDlen
    rw [State.absorbAll_append, State.absorbAll_cons_buf_of_full (BitVec.eq_of_toNat_eq hfull) b i (by omega),
      Fin.getElem_fin, ← Context.valid_getD _ _ i.isLt (by omega), hblock.valid_eq, hD, ← List.append_assoc,
      List.getD_append _ _ _ _ (by rw [List.length_append]; omega)]
    simp [List.getD_eq_getElem?_getD]

/-! ### `UPDATE` in closed form -/

/-- The registers of an open session in which no flag is set hold themselves. -/
theorem Context.holds_self {c : Context} (hbuf : c.buflen.toNat ≤ 128) (hf0 : c.f0 = 0) (hf1 : c.f1 = 0) :
    c.Holds c.h (count c) c.valid :=
  ⟨rfl, by have h0 := c.t0.isLt; have h1 := c.t1.isLt; unfold count; omega, rfl, hbuf, hf0, hf1⟩

/-- Settles O26: the registers hold what `foldBlocks` gives of the valid bytes and the data, and its count and rest
are those of `c` blocks (R110). -/
theorem updateClosedForm : Obligations.UpdateClosedForm := by
  intro s data D c hopen hbuf hf0 hf1 hdata hD hc
  have hself := Context.holds_self hbuf hf0 hf1
  have hD' : D = s.ctx.valid ++ data := hD
  have hheld := State.holds_absorbAll_drop hself hD'
  rw [← hc] at hheld
  obtain ⟨t, hexec, -, ht⟩ := exec_update s data
  rw [State.updated_of_isOpen hopen] at ht
  have hbuflen : t.ctx.buflen.toNat = D.length - 128 * c := by
    rw [ht, ← List.length_drop]
    exact hheld.length_eq.symm
  have hpos : 0 < data.length := List.length_pos_iff.2 hdata
  have hDlen : D.length = s.ctx.valid.length + data.length := by rw [hD', List.length_append]
  refine ⟨t, hexec, ?_, ?_, hbuflen, fun i hi => ?_, fun i hi => ?_⟩
  · rw [ht, hheld.h_eq, hc, ← foldBlocks_snd _ s.ctx.h _ _ le_rfl]
  · rw [ht]
    exact hheld.count_eq
  · rw [ht] at hi ⊢
    rw [Fin.getElem_fin, ← Context.valid_getD _ _ i.isLt hi]
    have hvalid : Context.valid { (s.absorbAll data).ctx with phase := .absorbing } = D.drop (128 * c) := hheld.valid_eq
    rw [hvalid]
    simp [List.getD_eq_getElem?_getD]
  · rw [ht]
    exact State.absorbAll_stale hself hD' hc i (hbuflen ▸ hi)

end Sys2Proof.Machine
end
section
/-! What every command answers (spec/42_hash_state_machine.md R100 to R107; spec/60_exceptions.md R142). It is said
once, by `exec_eq_answer`, in the terms of the statements: a command whose status is not zero answers that status and
nothing else, any other command leaves the context `State.effect` and answers `State.payload`. -/

namespace Sys2Proof.Machine

open Sys2Proof.Claims

/-- The context a command leaves when it succeeds (R102, R103, R105, R106, R107). -/
def State.effect (s : State) : Instr → Context
  | .init ln P => s.ctx.seed P ln
  | .initKeyed n key =>
    { ((s.setCtx (s.ctx.seed (buildBlock n (BitVec.ofNat 8 key.length) none none) false)).absorbAll
        (keyBlock key).toList).ctx with phase := .fresh }
  | .update D => { (s.absorbAll D).ctx with phase := .absorbing }
  | .final _ => { s.finish.ctx with phase := .finalized }
  | .wipe => Context.reset
  | .pbuild _ _ _ _ => s.ctx
  | .compress _ _ _ _ _ _ => s.ctx

theorem State.effect_init (s : State) (ln : Bool) (P : Bytes 64) : s.effect (.init ln P) = s.ctx.seed P ln := rfl

theorem State.effect_update (s : State) (D : List Byte) :
    s.effect (.update D) = { (s.absorbAll D).ctx with phase := .absorbing } := rfl

theorem State.effect_final (s : State) (cap : Byte) :
    s.effect (.final cap) = { s.finish.ctx with phase := .finalized } := rfl

/-- The payload a command answers when it succeeds (R93, R106, R127). -/
def State.payload (s : State) : Instr → List Byte
  | .final _ => (writeWords (Vector.replicate 64 0) s.finish.ctx.h).toList.take s.ctx.outlen.toNat
  | .pbuild dl kl salt pers => (buildBlock dl kl salt pers).toList
  | .compress hin block t0 t1 f0 f1 =>
    (writeWords (Vector.replicate 64 0) (transformF (wordsOf hin) block t0 t1 f0 f1)).toList
  | _ => []

/-- The status of a command in a machine (R142). -/
abbrev State.statusOf (s : State) (i : Instr) : Byte := Claims.statusOf i s.ctx.phase s.ctx.outlen

/-- The machine after a command. -/
def State.answer (s : State) (i : Instr) : State :=
  if s.statusOf i = 0 then finished s (s.effect i) (s.payload i) else answered s (s.statusOf i) []

section
variable {s : State} {i : Instr}

theorem State.answer_of_ok (h : s.statusOf i = 0) : s.answer i = finished s (s.effect i) (s.payload i) := if_pos h

theorem State.answer_of_error (h : s.statusOf i ≠ 0) : s.answer i = answered s (s.statusOf i) [] := if_neg h

@[simp] theorem State.answer_cmds : (s.answer i).cmds = s.cmds := by
  unfold State.answer
  split <;> rfl

@[simp] theorem State.answer_tmp : (s.answer i).tmp = Transient.zero := by
  unfold State.answer
  split <;> rfl

theorem State.answer_ctx : (s.answer i).ctx = if s.statusOf i = 0 then s.effect i else s.ctx := by
  unfold State.answer
  split <;> rfl

end

/-- An outcome of the command `i` in `s` is its answer. -/
def Answers (s : State) (i : Instr) (o : Host.Outcome State Fault Refusal) : Prop := o = .next (s.answer i)

section
variable {s : State} {i : Instr}

/-- An error carries the status and nothing else (R141). -/
theorem Answers.raise {e : Status} (h : s.statusOf i = e.code) (he : e.code ≠ 0) :
    Answers s i (.next (s.raise e)) := by
  rw [Answers, State.answer_of_error (h ▸ he), h, State.raise_eq_answered]

/-- A success carries the payload, and the context is the one the command has built. -/
theorem Answers.respond {u : State} {pay : List Byte} (h : s.statusOf i = 0) (hctx : u.ctx = s.effect i)
    (hpay : pay = s.payload i) (hlen : pay.length < 256) (hcmds : u.cmds = s.cmds) (hrsps : u.rsps = s.rsps) :
    Answers s i (.next (u.respond .ok pay)) := by
  rw [Answers, State.answer_of_ok h, State.respond_eq_answered _ _ hlen, ← hctx, ← hpay]
  simp only [finished, answered, hcmds, hrsps]
  rfl

end

section
variable (s : State)

theorem execInit_answers (ln : Bool) (P : Bytes 64) : Answers s (.init ln P) (execInit ln P s) := by
  simp only [execInit, not_digestLengthOk_iff, not_keyLengthOk_iff]
  split
  · next hdl => exact .raise (if_pos hdl) (by decide)
  · next hdl =>
    split
    · next hkl => exact .raise ((if_neg hdl).trans (if_pos hkl)) (by decide)
    · next hkl => exact .respond ((if_neg hdl).trans (if_neg hkl)) rfl rfl (by simp) rfl rfl

theorem not_keyOk_iff (key : List Byte) : (!keyOk key) = true ↔ key.length = 0 ∨ 64 < key.length := by
  rw [Bool.not_eq_true', ← Bool.not_eq_true, keyOk_iff]
  omega

/-- Absorbing the key block reads the context that the seed has written (R103). -/
theorem State.keyed_ctx_eq_effect (n : Byte) (key : List Byte) {u : State}
    (hu : u.ctx = s.ctx.seed (buildBlock n (BitVec.ofNat 8 key.length) none none) false) :
    ((u.absorbAll (keyBlock key).toList).setPhase .fresh).ctx = s.effect (.initKeyed n key) := by
  rw [State.setPhase_ctx, State.effect,
    State.absorbAll_congr (hu.trans (State.setCtx_ctx s _).symm) (keyBlock key).toList]

theorem execInitKeyed_answers (n : Byte) (key : List Byte) :
    Answers s (.initKeyed n key) (execInitKeyed n key s) := by
  simp only [execInitKeyed, not_digestLengthOk_iff, not_keyOk_iff, State.stageKey_tmp]
  split
  · next hn => exact .raise (if_pos hn) (by decide)
  · next hn =>
    split
    · next hkey => exact .raise ((if_neg hn).trans (if_pos hkey)) (by decide)
    · next hkey =>
      refine .respond ((if_neg hn).trans (if_neg hkey)) ?_ rfl (by simp) ?_ ?_
      · exact State.keyed_ctx_eq_effect s n key (by simp)
      · rw [State.setPhase_cmds, State.absorbAll_cmds, State.stageKey_cmds, State.seed_cmds, State.stageBlock_cmds]
      · rw [State.setPhase_rsps, State.absorbAll_rsps, State.stageKey_rsps, State.seed_rsps, State.stageBlock_rsps]

/-- `UPDATE` and `FINAL` share the checks of the phase and their codes (R105, R106). -/
theorem phaseCheck_cases_status {i : Instr} {x : Byte}
    (hi : s.statusOf i = if s.ctx.phase = .idle then 0x07 else if s.ctx.phase = .finalized then 0x06 else x) :
    (∃ e, phaseCheck s.ctx.phase = .error e ∧ s.statusOf i = e.code ∧ e.code ≠ 0) ∨
    (phaseCheck s.ctx.phase = .ok () ∧ s.statusOf i = x) := by
  obtain ⟨hp, hc⟩ | ⟨hp, hc⟩ | ⟨hp, hc⟩ := phaseCheck_cases s.ctx.phase
  · exact .inl ⟨_, hc, hi.trans (if_pos hp), by decide⟩
  · exact .inl ⟨_, hc, hi.trans (by rw [hp]; rfl), by decide⟩
  · obtain ⟨hidle, hfin⟩ := (Phase.isOpen_iff _).1 hp
    exact .inr ⟨hc, hi.trans ((if_neg hidle).trans (if_neg hfin))⟩

theorem execUpdate_answers (D : List Byte) : Answers s (.update D) (execUpdate D s) := by
  unfold execUpdate
  obtain ⟨e, hc, he, hne⟩ | ⟨hc, h⟩ := phaseCheck_cases_status s (i := .update D) rfl <;> rw [hc]
  · exact .raise he hne
  · exact .respond h rfl rfl (by simp) (by simp) (by simp)

theorem execFinal_answers (cap : Byte) : Answers s (.final cap) (execFinal cap s) := by
  unfold execFinal
  obtain ⟨e, hc, he, hne⟩ | ⟨hc, h⟩ := phaseCheck_cases_status s (i := .final cap) rfl <;> rw [hc]
  · exact .raise he hne
  dsimp only
  split
  · next hcap => exact .raise (h.trans (if_pos hcap)) (by decide)
  · next hcap =>
    refine .respond (h.trans (if_neg hcap)) (by simp [State.effect]) ?_ ?_ (by simp) (by simp)
    · obtain ⟨-, -, -, hout, -⟩ := s.finish_registers
      rw [State.payload, ← hout, writeWords_congr _ s.finish.tmp.scr]
      simp
    · rw [List.length_take, Vector.length_toList]
      omega

theorem execPbuild_answers (dl kl : Byte) (salt pers : Option (Bytes 16)) :
    Answers s (.pbuild dl kl salt pers) (execPbuild dl kl salt pers s) := by
  rw [execPbuild, build_eq]
  split_ifs with hdl hkl
  · exact .raise (if_pos hdl) (by decide)
  · exact .raise ((if_neg hdl).trans (if_pos hkl)) (by decide)
  · exact .respond ((if_neg hdl).trans (if_neg hkl)) rfl rfl (by simp) rfl rfl

theorem execCompress_answers (hin : Bytes 64) (block : Bytes 128) (t0 t1 f0 f1 : Word) :
    Answers s (.compress hin block t0 t1 f0 f1) (execCompress hin block t0 t1 f0 f1 s) := by
  refine .respond rfl (by simp [State.effect]) ?_ (by simp) (by simp) (by simp)
  rw [State.payload, State.runRounds_v, transformF]

end

/-- What every command does, in every state (R5, R142). -/
theorem exec_eq_answer (i : Instr) (s : State) : exec i s = .next (s.answer i) := by
  cases i with
  | init ln P => exact execInit_answers s ln P
  | initKeyed n key => exact execInitKeyed_answers s n key
  | update D => exact execUpdate_answers s D
  | final cap => exact execFinal_answers s cap
  | wipe => exact Answers.respond (i := .wipe) rfl rfl rfl (by simp) rfl rfl
  | pbuild dl kl salt pers => exact execPbuild_answers s dl kl salt pers
  | compress hin block t0 t1 f0 f1 => exact execCompress_answers s hin block t0 t1 f0 f1

end Sys2Proof.Machine
end
section
/-! The rules of the hash state machine that `exec_eq_answer` gives (spec/42_hash_state_machine.md R100 to R109): each
command's own rule, the table of phases, and what a command leaves unchanged. -/

namespace Sys2Proof.Machine

open Sys2Proof.Claims

section
variable {s : State} {i : Instr}

theorem exec_of_status_ne_zero {e : Byte} (h : s.statusOf i = e) (he : e ≠ 0) :
    exec i s = .next (answered s e []) := by
  subst h
  rw [exec_eq_answer, State.answer_of_error he]

theorem exec_of_status_eq_zero (h : s.statusOf i = 0) : exec i s = .next (finished s (s.effect i) (s.payload i)) := by
  rw [exec_eq_answer, State.answer_of_ok h]

theorem statusOf_update_of_isOpen (hs : s.ctx.phase.isOpen = true) (D : List Byte) : s.statusOf (.update D) = 0 := by
  obtain ⟨hidle, hfin⟩ := (Phase.isOpen_iff _).1 hs
  exact (if_neg hidle).trans (if_neg hfin)

theorem exec_update_of_isOpen (hs : s.ctx.phase.isOpen = true) (D : List Byte) : exec (.update D) s =
    .next (finished s { (s.absorbAll D).ctx with phase := .absorbing } []) :=
  exec_of_status_eq_zero (statusOf_update_of_isOpen hs D)

end

/-! ### Phases and frames -/

theorem State.effect_phase (s : State) (i : Instr) : (s.effect i).phase = phaseAfter i s.ctx.phase := by
  cases i <;> rfl

/-- Settles O33: the answer of a command has the phase of its effect, or keeps the context (R100). -/
theorem phaseTransitions : Obligations.PhaseTransitions := by
  refine ⟨fun i s => ⟨_, exec_eq_answer i s, ?_⟩, fun s hs => exec_update_of_isOpen hs []⟩
  rw [State.answer_ctx, ← State.effect_phase]
  split <;> rfl

/-- A seed overwrites every register (R102). -/
theorem Context.seed_congr (c d : Context) (P : Bytes 64) (ln : Bool) : c.seed P ln = d.seed P ln := by
  unfold Context.seed Context.clearFlags
  rfl

/-- No command that succeeds reads the phase (R100). -/
theorem State.effect_withPhase {s t : State} {p : Phase} (h : t.ctx = { s.ctx with phase := p }) (i : Instr) :
    s.effect i = { t.effect i with phase := (s.effect i).phase } := by
  cases i with
  | init ln P => simp only [State.effect, h]; rfl
  | initKeyed n key =>
    simp only [State.effect, Context.seed_congr t.ctx s.ctx]
    rw [State.absorbAll_congr (s := s.setCtx _) (t := t.setCtx _) rfl]
  | update D => simp only [State.effect, State.absorbAll_ctx_of_ctx_withPhase h]
  | final cap => simp only [State.effect, State.finish_ctx, h]; rfl
  | wipe => rfl
  | pbuild dl kl salt pers => simp only [State.effect, h]
  | compress hin block t0 t1 f0 f1 => simp only [State.effect, h]

/-- Nor does a status tell the two open phases apart (R100). -/
theorem statusOf_fresh (i : Instr) (outlen : Byte) :
    Claims.statusOf i .fresh outlen = Claims.statusOf i .absorbing outlen := by
  cases i <;> rfl

/-- Settles O34: the two phases give the same status, and no effect reads the phase; the responses are those of two
machines that are alike (R100). -/
theorem freshAndAbsorbingActAlike : Obligations.FreshAndAbsorbingActAlike := by
  intro i s hs
  have hopen : s.ctx.phase.isOpen = true := by rw [hs]; rfl
  have halike : s.Alike { s with ctx := { s.ctx with phase := .absorbing } } :=
    ⟨Context.SameSession.alike ⟨hopen, rfl, rfl, rfl, rfl, rfl, rfl, rfl, rfl, rfl, fun _ _ => rfl⟩, rfl, rfl⟩
  obtain ⟨t, t', ht, ht', -, -, hrsps⟩ := exec_answersAlike halike i
  refine ⟨t, t', ht, ht', hrsps, ?_⟩
  obtain rfl := Host.Outcome.next.inj ((exec_eq_answer i _).symm.trans ht)
  obtain rfl := Host.Outcome.next.inj ((exec_eq_answer i _).symm.trans ht')
  rw [State.answer_ctx, State.answer_ctx, State.statusOf, State.statusOf, hs, statusOf_fresh]
  split
  · exact State.effect_withPhase (State.setCtx_ctx s _) i
  · rfl

/-- Settles O35: an error keeps the context, and the effects of the four commands keep the registers named (R104, R105,
R106, R93, R127). -/
theorem commandFrames : Obligations.CommandFrames := by
  intro i s t ht
  obtain rfl : s.answer i = t := Host.Outcome.next.inj ((exec_eq_answer i s).symm.trans ht)
  refine ⟨State.answer_cmds, State.answer_tmp, ?_, ?_, ?_, ?_⟩
  · rintro dl kl salt pers rfl
    exact State.answer_ctx.trans (ite_self _)
  · rintro h block t0 t1 f0 f1 rfl
    exact State.answer_ctx.trans (ite_self _)
  · rintro D rfl
    rw [State.answer_ctx, State.effect_update]
    split
    · obtain ⟨hf0, hf1, hout, hln, -⟩ := s.absorbAll_frame D
      refine ⟨hf0, hf1, hout, hln, fun hD => ?_⟩
      rw [State.absorbAll_ctx_of_fits hD]
      exact s.ctx.foldl_putByte_frame D hD
    · exact ⟨rfl, rfl, rfl, rfl, fun _ => ⟨rfl, rfl, rfl, fun _ _ => rfl⟩⟩
  · rintro cap rfl
    rw [State.answer_ctx, State.effect_final]
    split
    · obtain ⟨-, -, hbuflen, hout, hln⟩ := s.finish_registers
      refine ⟨by simpa using hbuflen, by simpa using hout, by simpa using hln, fun j hj => ?_⟩
      simp [State.finish_ctx, Nat.not_le.2 hj]
    · exact ⟨rfl, rfl, rfl, fun _ _ => rfl⟩

/-- Settles O43: `UPDATE` leaves `State.updated`, which composes (R109). -/
theorem updatesCompose : Obligations.UpdatesCompose := by
  intro s a b X Y ha hb
  obtain ⟨a', hexec, -, ha'⟩ := exec_update s X
  obtain rfl : a' = a := Host.Outcome.next.inj (hexec.symm.trans ha)
  obtain ⟨b', hexec', -, hb'⟩ := exec_update a' Y
  obtain rfl : b' = b := Host.Outcome.next.inj (hexec'.symm.trans hb)
  obtain ⟨t, hexec'', -, ht⟩ := exec_update s (X ++ Y)
  exact ⟨t, hexec'', by rw [ht, hb', State.updated_updated ha' Y]⟩

/-- Settles O28: `WIPE` leaves the reset context, which is in `Idle` (R107). -/
theorem wipeLeavesResetContext : Obligations.WipeLeavesResetContext := by
  intro s
  refine ⟨decode_encode .wipe, exec_of_status_eq_zero rfl, fun t ht data cap => ?_⟩
  obtain rfl : s.answer .wipe = t := Host.Outcome.next.inj ((exec_eq_answer .wipe s).symm.trans ht)
  exact ⟨exec_of_status_ne_zero rfl (by decide), exec_of_status_ne_zero rfl (by decide)⟩

/-! ### A finalized context -/

/-- In `Finalized` a command that does not start afresh fails, or has no effect on the context (R100, R164). -/
theorem State.answer_ctx_of_finalized {s : State} (hs : s.ctx.phase = .finalized) {i : Instr}
    (hi : ¬ (i.opcode = .init ∨ i.opcode = .initKeyed ∨ i.opcode = .wipe)) : (s.answer i).ctx = s.ctx := by
  rw [State.answer_ctx]
  cases i with
  | init ln P => exact absurd (.inl rfl) hi
  | initKeyed n key => exact absurd (.inr (.inl rfl)) hi
  | update D => exact if_neg (by simp [Claims.statusOf, hs])
  | final cap => exact if_neg (by simp [Claims.statusOf, hs])
  | wipe => exact absurd (.inr (.inr rfl)) hi
  | pbuild dl kl salt pers => exact ite_self _
  | compress hin block t0 t1 f0 f1 => exact ite_self _

theorem step_ctx_of_finalized {s : State} (hs : s.ctx.phase = .finalized) (hcmds : ∀ K ∈ s.cmds, ¬ restarts K) :
    ∃ t, step s = .next t ∧ t.ctx = s.ctx ∧ t.cmds = s.cmds.tail := by
  obtain ⟨hnil, hstep⟩ | ⟨K, rest, hcons, ⟨e, -, hstep⟩ | ⟨i, hK, hstep⟩⟩ := step_cases s
  · exact ⟨s, hstep, rfl, by rw [hnil]; rfl⟩
  · exact ⟨_, hstep, rfl, rfl⟩
  · have hi : ¬ restarts K := hcmds K (hcons ▸ List.mem_cons_self)
    exact ⟨_, hstep.trans (exec_eq_answer i _),
      State.answer_ctx_of_finalized (s := s.takePacket) hs fun h => hi ⟨i, hK, h⟩, State.answer_cmds⟩

/-- Settles O39, by induction on the steps: each keeps the context and takes a packet, so the premises go on to hold
(R100, R164). -/
theorem finalizedContextIsFrozen : Obligations.FinalizedContextIsFrozen := by
  intro n
  induction n with
  | zero =>
    intro s t _ _ hrun
    obtain rfl : s = t := Host.Outcome.next.inj hrun
    rfl
  | succ n ih =>
    intro s t hs hcmds hrun
    obtain ⟨u, hstep, hctx, htail⟩ := step_ctx_of_finalized hs hcmds
    rw [run_succ_of_step hstep] at hrun
    rw [← hctx]
    exact ih u t (hctx ▸ hs) (fun K hK => hcmds K (List.mem_of_mem_tail (htail ▸ hK))) hrun

end Sys2Proof.Machine
end
section
/-! The rules of the five commands of a session in full (spec/42_hash_state_machine.md R102 to R108). -/

namespace Sys2Proof.Machine

open Sys2Proof.Claims

/-! ### Seeding a session -/

/-- A word of a 64-byte operand is the little-endian value of its eight bytes (R91, R73). -/
theorem wordsOf_eq_ofNat (P : Bytes 64) (i : Nat) (hi : i < 8) :
    (wordsOf P)[i] = BitVec.ofNat 64 (bytesToNat ((P.toList.drop (8 * i)).take 8)) := by
  rw [wordsOf, Vector.getElem_ofFn]
  rfl

/-- A word of a 64-byte operand is the sum of its eight bytes (R32, R91). -/
theorem wordsOf_getElem (P : Bytes 64) (i : Nat) (hi : i < 8) : (wordsOf P)[i] = wordAt P ⟨i, hi⟩ := by
  have hread : bytesToNat ((P.toList.drop (8 * i)).take 8) = memRead P (8 * i) 8 (by omega) := rfl
  rw [wordsOf_eq_ofNat, hread, memRead_eq_sum]
  rfl

/-- The chaining words a session starts with (R102). -/
def seedWords (P : Bytes 64) : Vector Word 8 := Vector.ofFn fun i => iv[i] ^^^ wordAt P i

theorem seedWords_eq (P : Bytes 64) : (Vector.ofFn fun i => iv[i] ^^^ (wordsOf P)[i]) = seedWords P := by
  ext i hi : 1
  simp [seedWords, wordsOf_getElem]

theorem Context.seed_eq (c : Context) (P : Bytes 64) (ln : Bool) : c.seed P ln =
    { h := seedWords P, t0 := 0, t1 := 0, f0 := 0, f1 := 0, buf := Vector.replicate 128 0, buflen := 0,
      outlen := P[0], lastNode := ln, phase := .fresh } := by
  rw [← seedWords_eq]
  unfold Context.seed Context.clearFlags
  rfl

theorem statusOf_init_of_valid (s : State) (ln : Bool) {P : Bytes 64} (hdl : ¬ (P[0].toNat = 0 ∨ 64 < P[0].toNat))
    (hkl : ¬ 64 < P[1].toNat) : s.statusOf (.init ln P) = 0 := (if_neg hdl).trans (if_neg hkl)

/-- Settles O22: the two checks of `statusOf` in their order, and else the context of `Context.seed_eq` (R102). -/
theorem initSeedsSession : Obligations.InitSeedsSession := by
  intro s ln P
  refine ⟨decode_encode (.init ln P), ?_⟩
  split
  · next hdl => exact exec_of_status_ne_zero (if_pos hdl) (by decide)
  · next hdl =>
    split
    · next hkl => exact exec_of_status_ne_zero ((if_neg hdl).trans (if_pos hkl)) (by decide)
    · next hkl =>
      rw [exec_of_status_eq_zero (statusOf_init_of_valid s ln hdl hkl), State.effect_init, Context.seed_eq]
      rfl

/-! ### The key block -/

/-- The key padded to a block (R103). -/
def paddedKey (key : List Byte) : List Byte := key ++ List.replicate (128 - key.length) 0

theorem paddedKey_length {key : List Byte} (hkey : key.length ≤ 64) : (paddedKey key).length = 128 := by
  rw [paddedKey, List.length_append, List.length_replicate]
  omega

/-- The block that `INIT_KEYED` builds (R103). -/
abbrev keyedBlock (n : Byte) (key : List Byte) : Bytes 64 := buildBlock n (BitVec.ofNat 8 key.length) none none

theorem keyedBlock_digestLength (n : Byte) (key : List Byte) : (keyedBlock n key)[0] = n :=
  buildBlock_digestLength _ _ _ _

/-- The second byte of the builder's block is the key length (R90, R93). -/
theorem buildBlock_keyLength (dl kl : Byte) (salt pers : Option (Bytes 16)) : (buildBlock dl kl salt pers)[1] = kl := by
  simp [buildBlock, writeOptionalField_getElem]

theorem keyedBlock_keyLength (n : Byte) (key : List Byte) : (keyedBlock n key)[1] = BitVec.ofNat 8 key.length :=
  buildBlock_keyLength _ _ _ _

/-- The machine in which `INIT_KEYED` absorbs the key block: the seed of its block is in the context (R103). -/
abbrev State.keyedStart (s : State) (n : Byte) (key : List Byte) : State :=
  s.setCtx (s.ctx.seed (keyedBlock n key) false)

theorem State.effect_initKeyed (s : State) (n : Byte) {key : List Byte} (hkey : key.length ≤ 64) :
    s.effect (.initKeyed n key) =
      { ((s.keyedStart n key).absorbAll (paddedKey key)).ctx with phase := .fresh } := by
  rw [State.effect, keyBlock_toList key hkey, paddedKey]

section
variable (s : State) {n : Byte} {key : List Byte} (hpos : 1 ≤ n.toNat) (hle : n.toNat ≤ 64)
  (hkpos : 1 ≤ key.length) (hkle : key.length ≤ 64)
include hpos hle hkpos hkle

theorem exec_initKeyed_of_valid : exec (.initKeyed n key) s = .next (finished s
    { ((s.keyedStart n key).absorbAll (paddedKey key)).ctx with phase := .fresh } []) := by
  have hn : ¬ (n.toNat = 0 ∨ 64 < n.toNat) := by omega
  have hk : ¬ (key.length = 0 ∨ 64 < key.length) := by omega
  rw [exec_of_status_eq_zero (i := .initKeyed n key) ((if_neg hn).trans (if_neg hk)), State.effect_initKeyed s n hkle]
  rfl

theorem exec_init_keyedBlock : exec (.init false (keyedBlock n key)) s =
    .next (finished s (s.ctx.seed (keyedBlock n key) false) []) := by
  refine exec_of_status_eq_zero (statusOf_init_of_valid s false ?_ ?_)
  · rw [keyedBlock_digestLength]
    omega
  · rw [keyedBlock_keyLength, BitVec.toNat_ofNat]
    omega

end

/-- Settles O23: the effect is that of the two commands one after the other, with the phase of the first (R103). -/
theorem initKeyedIsInitThenKeyBlock : Obligations.InitKeyedIsInitThenKeyBlock := by
  intro s n key
  refine ⟨decode_encode (.initKeyed n key), fun hn => exec_of_status_ne_zero (if_pos hn) (by decide),
    fun hn hk => exec_of_status_ne_zero (i := .initKeyed n key) ((if_neg hn).trans (if_pos hk)) (by decide),
    fun hpos hle hkpos hkle => ?_⟩
  have hsame := State.absorbAll_congr (s := s.keyedStart n key)
    (t := finished s (s.ctx.seed (keyedBlock n key) false) []) rfl (paddedKey key)
  refine ⟨keyedBlock n key, _, _, buildBlock_toList _ _ _ _, exec_init_keyedBlock s hpos hle hkpos hkle,
    exec_update_of_isOpen rfl _, ?_⟩
  rw [exec_initKeyed_of_valid s hpos hle hkpos hkle, hsame]
  rfl

/-! ### The closed form of a keyed session's start -/

theorem countHigh_zero : countHigh 0 = 0 := by decide

theorem Context.holds_seed (c : Context) (P : Bytes 64) (ln : Bool) : (c.seed P ln).Holds (seedWords P) 0 [] := by
  rw [Context.seed_eq]
  exact ⟨rfl, rfl, Context.valid_eq_nil rfl, by simp, rfl, rfl⟩

theorem bytesToNat_replicate_zero (m : Nat) : bytesToNat (List.replicate m 0) = 0 := by
  induction m with
  | zero => rfl
  | succ m ih => rw [List.replicate_succ, bytesToNat, ih]; rfl

/-- The first eight bytes of the block, as the closed form writes them (R103). -/
theorem bytesToNat_keyedHead (n k : Byte) :
    bytesToNat [n, k, 1, 1, 0, 0, 0, 0] = 0x01010000 + 0x100 * k.toNat + n.toNat := by
  have h1 : (1 : Byte).toNat = 1 := rfl
  have h0 : (0 : Byte).toNat = 0 := rfl
  simp only [bytesToNat, h0, h1]
  ring

/-- Behind its first four bytes the block is zero (R90, R103). -/
theorem wordsOf_keyedBlock (n : Byte) {key : List Byte} (hkey : key.length ≤ 64) (i : Nat) (hi : i < 8) :
    (wordsOf (keyedBlock n key))[i] =
      if i = 0 then BitVec.ofNat 64 (0x01010000 + 0x100 * key.length + n.toNat) else 0 := by
  have hlist : (keyedBlock n key).toList = [n, BitVec.ofNat 8 key.length, 1, 1] ++ List.replicate 60 0 :=
    buildBlock_toList _ _ _ _
  rw [wordsOf_eq_ofNat, hlist]
  cases i with
  | zero =>
    refine congrArg _ ((bytesToNat_keyedHead n _).trans ?_)
    rw [BitVec.toNat_ofNat, Nat.mod_eq_of_lt (by omega)]
  | succ i =>
    rw [List.drop_append, List.drop_eq_nil_of_le (by simp; omega), List.nil_append, List.drop_replicate,
      List.take_replicate, bytesToNat_replicate_zero]
    rfl

theorem seedWords_keyedBlock (n : Byte) {key : List Byte} (hkey : key.length ≤ 64) : seedWords (keyedBlock n key) =
    iv.set 0 (iv[0] ^^^ BitVec.ofNat 64 (0x01010000 + 0x100 * key.length + n.toNat)) := by
  ext i hi : 1
  rw [seedWords, Vector.getElem_ofFn, ← wordsOf_getElem, wordsOf_keyedBlock n hkey, Vector.getElem_set]
  by_cases h0 : i = 0
  · simp [h0]
  · simp [h0, Ne.symm h0]

/-- Settles O24: the key block fills the empty buffer and nothing is flushed (R103, closed form). -/
theorem initKeyedClosedForm : Obligations.InitKeyedClosedForm := by
  intro s n key hpos hle hkpos hkle
  rw [exec_initKeyed_of_valid s hpos hle hkpos hkle]
  have hseed : (s.keyedStart n key).ctx.Holds _ _ _ := Context.holds_seed _ _ _
  have hlen := paddedKey_length hkle
  have hheld := State.holds_absorbAll hseed (paddedKey key) le_rfl
  rw [List.nil_append, foldBlocks_of_length_le _ _ _ hlen.le] at hheld
  obtain ⟨ht0, ht1⟩ := (count_eq_mod_iff _ _).1 hheld.count_eq
  have hfull := BitVec.eq_of_toNat_eq (hheld.length_eq.symm.trans hlen : _ = (128 : Byte).toNat)
  have hbuf := Context.buf_eq_of_full hfull
  rw [hheld.valid_eq] at hbuf
  refine congrArg (fun c => Host.Outcome.next (finished s c [])) ?_
  rw [Context.mk.injEq]
  exact ⟨hheld.h_eq.trans (seedWords_keyedBlock n hkle), ht0, ht1.trans countHigh_zero, hheld.f0_eq, hheld.f1_eq,
    hbuf, hfull,
    (State.absorbAll_outlen _ _).trans (keyedBlock_digestLength n key), State.absorbAll_lastNode _ _, rfl⟩

/-! ### `UPDATE` byte by byte -/

theorem absorbed_buflen {c : Context} (hc : c.buflen.toNat ≤ 128) (b : Byte) :
    1 ≤ (absorbed c b).buflen.toNat ∧ (absorbed c b).buflen.toNat ≤ 128 := by
  simp only [absorbed, BitVec.toNat_ofNat]
  split
  · rw [show (flushed c).buflen.toNat = 0 from rfl]
    decide
  · omega

/-- Absorbing is the rule's fold, wherever R18 holds (R104, R105). -/
theorem State.absorbAll_ctx_eq_foldl {s : State} (hs : s.ctx.buflen.toNat ≤ 128) (D : List Byte) :
    (s.absorbAll D).ctx = D.foldl absorbed s.ctx := by
  induction D generalizing s with
  | nil => rfl
  | cons b D ih =>
    have hctx := State.absorb_ctx_eq_absorbed hs b
    rw [State.absorbAll_cons, ih (hctx ▸ (absorbed_buflen hs b).2), hctx, List.foldl_cons]

theorem foldl_absorbed_buflen {c : Context} (hc : c.buflen.toNat ≤ 128) {D : List Byte} (hD : D ≠ []) :
    1 ≤ (D.foldl absorbed c).buflen.toNat ∧ (D.foldl absorbed c).buflen.toNat ≤ 128 := by
  induction D generalizing c with
  | nil => exact absurd rfl hD
  | cons b D ih =>
    have hb := absorbed_buflen hc b
    by_cases hnil : D = []
    · subst hnil
      exact hb
    · exact ih hb.2 hnil

/-- Settles O25: the checks of the phase, and else the fold of `ABSORB` (R104, R105). -/
theorem updateAbsorbsLazily : Obligations.UpdateAbsorbsLazily := by
  intro s D
  refine ⟨decode_encode (.update D), fun hp => exec_of_status_ne_zero (if_pos hp) (by decide),
    fun hp => exec_of_status_ne_zero (i := .update D) (by rw [State.statusOf, hp]; rfl) (by decide),
    fun hp hbuf => ⟨?_, fun hD => foldl_absorbed_buflen hbuf hD⟩⟩
  rw [exec_update_of_isOpen hp, State.absorbAll_ctx_eq_foldl hbuf]

/-! ### The digest -/

/-- The first bytes of the eight word writes are digest bytes (R106, R108). -/
theorem writeWords_take (S : Bytes 64) (h : Vector Word 8) {n : Nat} (hn : n ≤ 64) :
    (writeWords S h).toList.take n = (List.range n).map (digestByte h) := by
  apply List.ext_getElem
  · simp [hn]
  intro k hk _
  have hk64 : k < 64 := by simp at hk; omega
  have hget : h.getD (k / 8) 0 = h[k / 8] := Array.getElem_eq_getD 0 |>.symm
  rw [List.getElem_take, Vector.getElem_toList, writeWords_getElem _ _ _ hk64, List.getElem_map, List.getElem_range,
    digestByte, hget, BitVec.extractLsb']

/-- The last compression in the terms of the rule (R106). -/
theorem State.finish_ctx_eq {s : State} (hs : s.ctx.buflen.toNat ≤ 128) : s.finish.ctx =
    { withCount s.ctx (count s.ctx + s.ctx.buflen.toNat) with
      h := transformF s.ctx.h (padBlock s.ctx.valid) (countLow (count s.ctx + s.ctx.buflen.toNat))
        (countHigh (count s.ctx + s.ctx.buflen.toNat)) allOnes (if s.ctx.lastNode then allOnes else s.ctx.f1)
      f0 := allOnes
      f1 := if s.ctx.lastNode then allOnes else s.ctx.f1
      buf := padBlock s.ctx.valid } := by
  have hlen : (s.ctx.buflen.setWidth 64 : Word).toNat = s.ctx.buflen.toNat := by
    rw [BitVec.toNat_setWidth, Nat.mod_eq_of_lt (by omega)]
  have hcount : count s.ctx.padBuffer.setFinalFlags = count s.ctx := by simp [count]
  rw [State.finish_ctx, Context.inc_eq_withCount, hlen, hcount]
  simp [withCount, countLow, countHigh, -Context.padBuffer_buf, Context.padBuffer_buf_eq]

section
variable {s : State} {cap : Byte} (hp : s.ctx.phase.isOpen = true)
include hp

theorem exec_final_of_cap_lt (hcap : cap.toNat < s.ctx.outlen.toNat) :
    exec (.final cap) s = .next (answered s 0x05 []) := by
  obtain ⟨hidle, hfin⟩ := (Phase.isOpen_iff _).1 hp
  exact exec_of_status_ne_zero (i := .final cap) ((if_neg hidle).trans ((if_neg hfin).trans (if_pos hcap))) (by decide)

theorem exec_final_of_le_cap (hcap : s.ctx.outlen.toNat ≤ cap.toNat) (hout : s.ctx.outlen.toNat ≤ 64) :
    exec (.final cap) s = .next (finished s { s.finish.ctx with phase := .finalized }
      ((List.range s.ctx.outlen.toNat).map (digestByte s.finish.ctx.h))) := by
  obtain ⟨hidle, hfin⟩ := (Phase.isOpen_iff _).1 hp
  rw [exec_of_status_eq_zero (i := .final cap)
    ((if_neg hidle).trans ((if_neg hfin).trans (if_neg (Nat.not_lt.2 hcap)))), State.effect_final, State.payload,
    writeWords_take _ _ hout]

end

/-- Settles O27: the checks in their order, and else the context of `State.finish_ctx_eq` and the digest that
`writeWords_take` reads from it (R106, R108). -/
theorem finalAnswersDigest : Obligations.FinalAnswersDigest := by
  intro s cap
  refine ⟨decode_encode (.final cap), fun hp => exec_of_status_ne_zero (if_pos hp) (by decide),
    fun hp => exec_of_status_ne_zero (i := .final cap) (by rw [State.statusOf, hp]; rfl) (by decide),
    fun hp hcap => exec_final_of_cap_lt hp hcap, fun hp hcap hout hbuf => ?_⟩
  have hblock : padBlock s.ctx.valid =
      Vector.ofFn fun i : Fin 128 => if i.val < s.ctx.buflen.toNat then s.ctx.buf[i] else 0 := by
    simp only [← Context.padBuffer_buf_eq, Context.padBuffer_buf, ← not_le, ite_not]
  rw [exec_final_of_le_cap hp hcap hout, State.finish_ctx_eq hbuf, hblock]
  rfl

end Sys2Proof.Machine
end
section
/-! A whole session (spec/42_hash_state_machine.md R102, R103, R106 to R110). The context of an open session is what
`State.absorbAll` leaves of its start, up to the phase; `State.holds_absorbAll` and `State.finish_h_of_holds` read the
digest of the whole message from it. -/

namespace Sys2Proof.Machine

open Sys2Proof.Claims

/-! ### The digest of a message -/

theorem countWords_congr {a b : Nat} (h : a % 2 ^ 128 = b % 2 ^ 128) :
    countLow a = countLow b ∧ countHigh a = countHigh b :=
  (count_eq_mod_iff (withCount Context.reset a) b).1 ((count_withCount _ a).trans h)

/-- The last compression, in a session whose registers hold these words, count and pending bytes (R106). -/
theorem State.finish_h_of_holds {s : State} {h : Vector Word 8} {n : Nat} {V : List Byte} (hs : s.ctx.Holds h n V) :
    s.finish.ctx.h = transformF h (padBlock V) (countLow (n + V.length)) (countHigh (n + V.length)) allOnes
      (if s.ctx.lastNode then allOnes else 0) := by
  obtain ⟨hlow, hhigh⟩ := countWords_congr
    (show (count s.ctx + V.length) % 2 ^ 128 = (n + V.length) % 2 ^ 128 by rw [hs.count_eq, Nat.mod_add_mod])
  rw [State.finish_ctx_eq hs.buflen_le, ← hs.length_eq, hlow, hhigh, hs.h_eq, hs.valid_eq, hs.f1_eq]

/-- The bytes of a word are its digest bytes (R77, R108). -/
theorem store64_toList_eq_digestBytes (h : Vector Word 8) (q : Nat) :
    (store64 (h.getD q 0)).toList = (List.range 8).map fun r => digestByte h (8 * q + r) := by
  apply List.ext_getElem
  · simp
  intro r hr _
  rw [Vector.length_toList] at hr
  have hbyte := storeBytes_getElem (n := 8) (h.getD q 0) ⟨r, hr⟩
  rw [← store64_eq_storeBytes] at hbyte
  rw [Vector.getElem_toList, List.getElem_map, List.getElem_range, digestByte, show (8 * q + r) / 8 = q by omega,
    show (8 * q + r) % 8 = r by omega]
  exact hbyte

theorem serialize_eq (h : Vector Word 8) : serialize h = (List.range 64).map (digestByte h) := by
  have hlist : h.toList = (List.range 8).map fun q => h.getD q 0 := by
    apply List.ext_getElem
    · simp
    intro q hq _
    rw [Vector.getElem_toList, List.getElem_map, List.getElem_range]
    exact Array.getElem_eq_getD 0
  have hrange : List.range 64 = (List.range 8).flatMap fun q => (List.range 8).map fun r => 8 * q + r := by decide
  rw [serialize, hlist, hrange, List.flatMap_map, List.map_flatMap]
  simp only [store64_toList_eq_digestBytes, List.map_map, Function.comp_def]

theorem serialize_take (h : Vector Word 8) {n : Nat} (hn : n ≤ 64) :
    (serialize h).take n = (List.range n).map (digestByte h) := by
  rw [serialize_eq, ← List.map_take, List.take_range, min_eq_left hn]

theorem Context.Holds.withPhase {c : Context} {h : Vector Word 8} {n : Nat} {V : List Byte} (hc : c.Holds h n V)
    (p : Phase) : ({ c with phase := p } : Context).Holds h n V :=
  ⟨hc.h_eq, hc.count_eq, hc.valid_eq, hc.buflen_le, hc.f0_eq, hc.f1_eq⟩

/-- A session that has started from the seed of `P` and absorbed `D` finishes with the digest of `D` (R106, R110). -/
theorem State.digest_of_seed {s t : State} {P : Bytes 64} {D : List Byte} (hs : s.ctx.Holds (seedWords P) 0 [])
    {p : Phase} (ht : t.ctx = { (s.absorbAll D).ctx with phase := p }) (hP : P[0].toNat ≤ 64) :
    (List.range P[0].toNat).map (digestByte t.finish.ctx.h) = messageDigest P s.ctx.lastNode D := by
  have hheld := (State.holds_absorbAll hs D le_rfl).withPhase p
  rw [← ht] at hheld
  have hln : t.ctx.lastNode = s.ctx.lastNode := by
    rw [ht]
    exact s.absorbAll_lastNode D
  rw [State.finish_h_of_holds hheld, hln, ← serialize_take _ hP]
  simp only [messageDigest, seedWords_eq, List.nil_append]

/-! ### The run of a session -/

/-- A command that succeeds does the same whatever packets wait behind it (R38). -/
theorem exec_waiting {s : State} {i : Instr} {c : Context} {pay : List Byte} (h : exec i s = .next (finished s c pay))
    (rest : List (List Byte)) : exec i (waiting s rest) = .next (waiting (finished s c pay) rest) := by
  obtain ⟨c', Q, hlocal⟩ := exec_local i s.ctx
  have heq := Host.Outcome.next.inj ((hlocal s rfl).symm.trans h)
  have hctx : c' = c := congrArg State.ctx heq
  have hrsps : s.rsps ++ [Q] = (finished s c pay).rsps := congrArg State.rsps heq
  rw [hlocal (waiting s rest) rfl, hctx]
  exact congrArg (fun r => Host.Outcome.next (State.mk c Transient.zero rest r)) hrsps

theorem run_waiting {s : State} {i : Instr} {c : Context} {pay : List Byte} (h : exec i s = .next (finished s c pay))
    (rest : List (List Byte)) (k : Nat) : Host.Core.run Sys2Proof.core (k + 1) (waiting s (encode i :: rest)) =
      Host.Core.run Sys2Proof.core k (waiting (finished s c pay) rest) :=
  run_succ_of_step ((step_of_decode_ok (s := waiting s _) rfl (decode_encode i)).trans (exec_waiting h rest)) k

/-- The `UPDATE` packets of an open session absorb their data one after the other, whatever waits behind them, and
each is answered OK (R105, R109). -/
theorem run_updates_append {s : State} (hs : s.ctx.phase.isOpen = true) (chunks : List (List Byte))
    (rest : List (List Byte)) (k : Nat) :
    ∃ (t : State) (p : Phase), Host.Core.run Sys2Proof.core (chunks.length + k)
        (waiting s (chunks.map (fun X => encode (.update X)) ++ rest)) =
          Host.Core.run Sys2Proof.core k (waiting t rest) ∧
      t.rsps = s.rsps ++ List.replicate chunks.length [0, 0, 0, 0] ∧ p.isOpen = true ∧
      t.ctx = { (s.absorbAll chunks.flatten).ctx with phase := p } := by
  induction chunks generalizing s with
  | nil => exact ⟨s, s.ctx.phase, by simp, by simp, hs, rfl⟩
  | cons X chunks ih =>
    obtain ⟨t, p, hrun, hrsps, hp, ht⟩ :=
      ih (s := finished s { (s.absorbAll X).ctx with phase := .absorbing } []) rfl
    refine ⟨t, p, ?_, ?_, hp, ?_⟩
    · rw [← hrun, List.length_cons, Nat.add_right_comm]
      exact run_waiting (exec_update_of_isOpen hs X) _ _
    · rw [hrsps]
      simp [finished, answered, List.replicate_succ]
    · rw [ht, List.flatten_cons, State.absorbAll_append,
        State.absorbAll_ctx_of_ctx_withPhase (s := s.absorbAll X) (p := .absorbing) rfl]

/-- An open session that goes on with `UPDATE` packets and `FINAL` answers OK to each, and at last the digest of all the
bytes since its seed: `D` are those it has absorbed so far (R106, R109). -/
theorem run_session {s z : State} {P : Bytes 64} {D : List Byte} {p : Phase} (hz : z.ctx.Holds (seedWords P) 0 [])
    (hout : z.ctx.outlen = P[0]) (hp : p.isOpen = true) (hs : s.ctx = { (z.absorbAll D).ctx with phase := p })
    (chunks : List (List Byte)) {cap : Byte} (hle : P[0].toNat ≤ 64) (hcap : P[0].toNat ≤ cap.toNat) :
    ∃ t, Host.Core.run Sys2Proof.core (chunks.length + 1)
        (waiting s (chunks.map (fun X => encode (.update X)) ++ [encode (.final cap)])) = .next t ∧
      t.rsps = s.rsps ++ List.replicate chunks.length [(0 : Byte), 0, 0, 0] ++
        [(0 : Byte) :: P[0] :: 0 :: 0 :: messageDigest P z.ctx.lastNode (D ++ chunks.flatten)] := by
  have hopen : s.ctx.phase.isOpen = true := by rw [hs]; exact hp
  obtain ⟨t, q, hrun, hrsps, hq, ht⟩ := run_updates_append hopen chunks [encode (.final cap)] 1
  rw [State.absorbAll_ctx_of_ctx_withPhase hs, ← State.absorbAll_append] at ht
  have htopen : t.ctx.phase.isOpen = true := by rw [ht]; exact hq
  have htout : t.ctx.outlen = P[0] := by
    rw [ht, ← hout]
    exact z.absorbAll_outlen _
  have hfinal := exec_final_of_le_cap htopen (cap := cap) (htout ▸ hcap) (htout ▸ hle)
  rw [htout, State.digest_of_seed hz ht hle] at hfinal
  refine ⟨_, hrun.trans (run_waiting hfinal [] 0), ?_⟩
  have hlen : BitVec.ofNat 8 (messageDigest P z.ctx.lastNode (D ++ chunks.flatten)).length = P[0] := by
    rw [← State.digest_of_seed hz ht hle]
    simp
  simp only [waiting, finished, answered, hrsps, hlen]

/-- Settles O44: `INIT` seeds the session, which has absorbed nothing yet (R102, R106 to R110). -/
theorem sessionComputesDigest : Obligations.SessionComputesDigest := by
  intro s ln P chunks cap hpos hle hkl hcap
  have hinit := exec_of_status_eq_zero (statusOf_init_of_valid s ln (P := P) (by omega) (by omega))
  rw [State.effect_init] at hinit
  obtain ⟨t, hrun, hrsps⟩ := run_session (s := finished s (s.ctx.seed P ln) []) (z := s.setCtx (s.ctx.seed P ln))
    (D := []) (p := .fresh) (Context.holds_seed _ P ln) (Context.seed_outlen _ P ln) rfl rfl chunks hle hcap
  refine ⟨t, (run_waiting hinit _ _).trans hrun, ?_⟩
  rw [hrsps]
  simp [finished, answered, List.replicate_succ]

/-- Settles O45: `INIT_KEYED` seeds the session and absorbs the padded key block (R103, R106 to R110, R113). -/
theorem keyedSessionComputesDigest : Obligations.KeyedSessionComputesDigest := by
  intro s n key chunks cap P hpos hle hkpos hkle hcap hP
  obtain rfl : P = keyedBlock n key := Vector.toList_inj.1 (hP.trans (buildBlock_toList _ _ _ _).symm)
  have hdl := keyedBlock_digestLength n key
  obtain ⟨t, hrun, hrsps⟩ := run_session (z := s.keyedStart n key) (D := paddedKey key) (p := .fresh) (cap := cap)
    (s := finished s { ((s.keyedStart n key).absorbAll (paddedKey key)).ctx with phase := .fresh } [])
    (Context.holds_seed s.ctx _ _) (Context.seed_outlen s.ctx _ _) rfl rfl chunks (by rw [hdl]; exact hle)
    (by rw [hdl]; exact hcap)
  refine ⟨t, (run_waiting (exec_initKeyed_of_valid s hpos hle hkpos hkle) _ _).trans hrun, ?_⟩
  rw [hrsps, hdl]
  simp [finished, answered, List.replicate_succ, paddedKey]

end Sys2Proof.Machine
end
section
/-! The transform (spec/43_compress.md R122 to R128). A call of `G` is a function of the four words its indices select
(`mixWords`, `wordsAt_mixG`), and calls with disjoint indices do not see each other; so a group of calls gives every
one of its quadruples `mixWords` of the words it had, in any order (`wordsAt_foldl_mixCall`) and all at once in lanes
(`gLanes_rowsAt`). -/

namespace Sys2Proof.Machine

open Sys2Proof.Claims

/-! ### `G` on the words it is given -/

theorem rotr64_eq_rotateRight (w : Word) (c : Fin 64) : rotr64 w c = w.rotateRight c.val := by
  rw [rotr64_eq_shifts, BitVec.rotateRight_eq_rotateRightAux_of_lt c.isLt, BitVec.rotateRightAux]

/-- The indices `a`, `b`, `c`, `d` of a call. -/
def Quad.indices (q : Quad) : List (Fin 16) := [q.a, q.b, q.c, q.d]

theorem Quad.ne_of_nodup {q : Quad} (h : q.indices.Nodup) :
    q.a ≠ q.b ∧ q.a ≠ q.c ∧ q.a ≠ q.d ∧ q.b ≠ q.c ∧ q.b ≠ q.d ∧ q.c ≠ q.d := by
  simpa [Quad.indices, and_assoc] using h

/-- The words of one call, in the order of its indices. -/
abbrev FourWords := Word × Word × Word × Word

/-- The words of `v` a call with these indices reads and writes (R122). -/
def wordsAt (v : Vector Word 16) (q : Quad) : FourWords := (v[q.a], v[q.b], v[q.c], v[q.d])

theorem getElem_eq_of_wordsAt_eq {v w : Vector Word 16} {q : Quad} (h : wordsAt v q = wordsAt w q) {j : Fin 16}
    (hj : j ∈ q.indices) : v[j] = w[j] := by
  simp only [wordsAt, Prod.mk.injEq] at h
  obtain ⟨ha, hb, hc, hd⟩ := h
  simp only [Quad.indices, List.mem_cons, List.not_mem_nil, or_false] at hj
  obtain rfl | rfl | rfl | rfl := hj
  · exact ha
  · exact hb
  · exact hc
  · exact hd

theorem wordsAt_congr {v w : Vector Word 16} {q : Quad} (h : ∀ j ∈ q.indices, v[j] = w[j]) :
    wordsAt v q = wordsAt w q := by
  simp only [Quad.indices, List.forall_mem_cons] at h
  obtain ⟨ha, hb, hc, hd, -⟩ := h
  rw [wordsAt, wordsAt, ha, hb, hc, hd]

/-- Four of the eight assignments of `G` as a function of values (R122). -/
def mixWordsHalf (w : FourWords) (x : Word) (r1 r2 : Nat) : FourWords :=
  let (a, b, c, d) := w
  let a := a + b + x
  let d := (d ^^^ a).rotateRight r1
  let c := c + d
  let b := (b ^^^ c).rotateRight r2
  (a, b, c, d)

/-- `G` as a function of values (R122). -/
def mixWords (w : FourWords) (x y : Word) : FourWords :=
  mixWordsHalf (mixWordsHalf w x 32 24) y 16 63

section
variable {q : Quad} (hq : q.indices.Nodup) (v : Vector Word 16) (x : Word) (r1 r2 : Fin 64)
include hq

/-- `mixHalf_getElem` with the values it asks for: those of `mixWordsHalf`. -/
theorem mixHalf_getElem_eq_ite (j : Fin 16) : (mixHalf v q x r1 r2)[j] =
    let w := mixWordsHalf (wordsAt v q) x r1 r2
    if j = q.a then w.1 else if j = q.b then w.2.1 else if j = q.c then w.2.2.1 else if j = q.d then w.2.2.2
    else v[j] := by
  obtain ⟨hab, hac, had, hbc, hbd, hcd⟩ := Quad.ne_of_nodup hq
  exact mixHalf_getElem v q.a q.b q.c q.d x r1 r2 (Fin.val_ne_of_ne hab) (Fin.val_ne_of_ne hac)
    (Fin.val_ne_of_ne had) (Fin.val_ne_of_ne hbc) (Fin.val_ne_of_ne hbd) (Fin.val_ne_of_ne hcd) _ _ _ _ rfl
    (rotr64_eq_rotateRight _ _).symm rfl (rotr64_eq_rotateRight _ _).symm j

theorem wordsAt_mixHalf : wordsAt (mixHalf v q x r1 r2) q = mixWordsHalf (wordsAt v q) x r1 r2 := by
  obtain ⟨hab, hac, had, hbc, hbd, hcd⟩ := Quad.ne_of_nodup hq
  rw [wordsAt]
  simp only [mixHalf_getElem_eq_ite hq, if_true, hab.symm, hac.symm, had.symm, hbc.symm, hbd.symm, hcd.symm, if_false]

theorem mixHalf_getElem_of_not_mem {j : Fin 16} (hj : j ∉ q.indices) : (mixHalf v q x r1 r2)[j] = v[j] := by
  simp only [Quad.indices, List.mem_cons, List.not_mem_nil, or_false, not_or] at hj
  obtain ⟨ha, hb, hc, hd⟩ := hj
  simp only [mixHalf_getElem_eq_ite hq, ha, hb, hc, hd, if_false]

/-- `G` leaves in its four words what it computes from them (R122). -/
theorem wordsAt_mixG (y : Word) : wordsAt (mixG v q x y) q = mixWords (wordsAt v q) x y := by
  rw [mixG, wordsAt_mixHalf hq, wordsAt_mixHalf hq, mixWords]
  rfl

/-- `G` writes no other word (R122). -/
theorem mixG_getElem_of_not_mem (y : Word) {j : Fin 16} (hj : j ∉ q.indices) : (mixG v q x y)[j] = v[j] := by
  rw [mixG, mixHalf_getElem_of_not_mem hq _ _ _ _ hj, mixHalf_getElem_of_not_mem hq _ _ _ _ hj]

end

/-- Settles O18: the four words are those of `mixWords`, whose two halves are the eight assignments (R122). -/
theorem mixingWritesFourWords : Obligations.MixingWritesFourWords := by
  intro v q x y hq
  have hw := wordsAt_mixG hq v x y
  simp only [wordsAt, Prod.ext_iff] at hw
  obtain ⟨ha, hb, hc, hd⟩ := hw
  exact ⟨ha, hb, hc, hd, fun j hj => mixG_getElem_of_not_mem hq v x y hj⟩

/-! ### A group of calls -/

theorem quad_indices_nodup (i : Fin 8) : quad[i].indices.Nodup := by
  revert i
  decide

/-- No two of the calls share an index (R126). -/
abbrev DisjointCalls (l : List (Fin 8)) : Prop := l.Pairwise fun i j => quad[i].indices.Disjoint quad[j].indices

section
variable (m : Vector Word 16) (r : Fin 12) (v : Vector Word 16)

/-- Call `i` of round `r` on the words of its quadruple (R123). -/
theorem wordsAt_mixCall (i : Fin 8) : wordsAt (mixCall m r v i) quad[i] =
    mixWords (wordsAt v quad[i]) m[sigma[r][2 * i.val]] m[sigma[r][2 * i.val + 1]] :=
  wordsAt_mixG (quad_indices_nodup i) v _ _

theorem wordsAt_mixCall_of_disjoint {i j : Fin 8} (h : quad[i].indices.Disjoint quad[j].indices) :
    wordsAt (mixCall m r v j) quad[i] = wordsAt v quad[i] :=
  wordsAt_congr fun _ hk => mixG_getElem_of_not_mem (quad_indices_nodup j) v _ _ (h hk)

theorem wordsAt_foldl_mixCall_of_disjoint {i : Fin 8} {l : List (Fin 8)}
    (h : ∀ j ∈ l, quad[i].indices.Disjoint quad[j].indices) :
    wordsAt (l.foldl (mixCall m r) v) quad[i] = wordsAt v quad[i] := by
  induction l generalizing v with
  | nil => rfl
  | cons j l ih =>
    obtain ⟨hj, hl⟩ := List.forall_mem_cons.1 h
    rw [List.foldl_cons, ih _ hl, wordsAt_mixCall_of_disjoint m r v hj]

/-- In a group of calls on disjoint indices each call finds its words as the group found them, and the later calls
leave what it wrote (R126). -/
theorem wordsAt_foldl_mixCall {l : List (Fin 8)} (hl : DisjointCalls l) {i : Fin 8} (hi : i ∈ l) :
    wordsAt (l.foldl (mixCall m r) v) quad[i] =
      mixWords (wordsAt v quad[i]) m[sigma[r][2 * i.val]] m[sigma[r][2 * i.val + 1]] := by
  induction l generalizing v with
  | nil => cases hi
  | cons k l ih =>
    obtain ⟨hk, hl⟩ := List.pairwise_cons.1 hl
    rw [List.foldl_cons]
    obtain rfl | hi := List.mem_cons.1 hi
    · rw [wordsAt_foldl_mixCall_of_disjoint m r _ hk, wordsAt_mixCall]
    · rw [ih _ hl hi, wordsAt_mixCall_of_disjoint m r v (hk i hi).symm]

/-- Calls on disjoint indices that cover all of `v` give the same `v` in any order: every word is in the quadruple of
one of them. -/
theorem foldl_mixCall_eq_of_perm {l g : List (Fin 8)} (h : l.Perm g) (hg : DisjointCalls g)
    (hcover : ∀ k : Fin 16, ∃ i ∈ g, k ∈ quad[i].indices) :
    l.foldl (mixCall m r) v = g.foldl (mixCall m r) v := by
  refine Vector.ext fun k hk => ?_
  obtain ⟨i, hi, hki⟩ := hcover ⟨k, hk⟩
  refine getElem_eq_of_wordsAt_eq ?_ hki
  rw [wordsAt_foldl_mixCall m r v (hg.perm h.symm List.Disjoint.symm) (h.mem_iff.2 hi),
    wordsAt_foldl_mixCall m r v hg hi]

end

/-! ### The two groups of a round -/

/-- The calls of group `g`: the columns for 0, the diagonals for 1 (R123). -/
def groupCall (g : Fin 2) (i : Fin 4) : Fin 8 := ⟨4 * g.val + i.val, by omega⟩

/-- The calls of group `g` in their order. -/
def groupCalls (g : Fin 2) : List (Fin 8) := (List.finRange 4).map (groupCall g)

theorem groupCalls_disjoint (g : Fin 2) : DisjointCalls (groupCalls g) := by
  have h : (groupCalls g).Pairwise fun i j => ∀ k ∈ quad[i].indices, k ∉ quad[j].indices := by
    fin_cases g <;> decide
  exact h.imp fun hij k => hij k

theorem groupCalls_cover (g : Fin 2) (k : Fin 16) : ∃ i ∈ groupCalls g, k ∈ quad[i].indices := by
  revert g k
  decide

/-- Settles O19: the quadruples of a group are disjoint and cover `v` (R126). -/
theorem callsOfAGroupCommute : Obligations.CallsOfAGroupCommute := fun m v r _ =>
  ⟨fun h => foldl_mixCall_eq_of_perm m r v h (groupCalls_disjoint 0) (groupCalls_cover 0),
    fun h => foldl_mixCall_eq_of_perm m r v h (groupCalls_disjoint 1) (groupCalls_cover 1)⟩

/-- A round is its columns, then its diagonals (R126). -/
theorem mixRound_eq_groups (m v : Vector Word 16) (r : Fin 12) :
    mixRound m v r = (groupCalls 1).foldl (mixCall m r) ((groupCalls 0).foldl (mixCall m r) v) := by
  have hcalls : List.finRange 8 = groupCalls 0 ++ groupCalls 1 := by decide
  rw [mixRound, hcalls, List.foldl_append]

/-! ### Four lanes -/

/-- The rows `a`, `b`, `c`, `d` of the lane-wise `G` (R128). -/
abbrev Rows := Lanes × Lanes × Lanes × Lanes

/-- The four words in lane `i`. -/
def lane (R : Rows) (i : Fin 4) : FourWords :=
  (R.1[i], R.2.1[i], R.2.2.1[i], R.2.2.2[i])

theorem rows_ext {R S : Rows} (h : ∀ i, lane R i = lane S i) : R = S := by
  simp only [lane, Prod.mk.injEq] at h
  refine Prod.ext (Vector.ext fun i hi => ?_) (Prod.ext (Vector.ext fun i hi => ?_)
    (Prod.ext (Vector.ext fun i hi => ?_) (Vector.ext fun i hi => ?_)))
  · exact (h ⟨i, hi⟩).1
  · exact (h ⟨i, hi⟩).2.1
  · exact (h ⟨i, hi⟩).2.2.1
  · exact (h ⟨i, hi⟩).2.2.2

/-- Four of the eight assignments of the lane-wise `G`. -/
def gLanesHalf (R : Rows) (x : Lanes) (r1 r2 : Nat) : Rows :=
  let (a, b, c, d) := R
  let a := lanes2 (· + ·) (lanes2 (· + ·) a b) x
  let d := rotLanes r1 (lanes2 (· ^^^ ·) d a)
  let c := lanes2 (· + ·) c d
  let b := rotLanes r2 (lanes2 (· ^^^ ·) b c)
  (a, b, c, d)

theorem gLanes_eq_halves (R : Rows) (x y : Lanes) :
    gLanes R x y = gLanesHalf (gLanesHalf R x 32 24) y 16 63 := rfl

theorem lane_gLanesHalf (R : Rows) (x : Lanes) (r1 r2 : Nat) (i : Fin 4) :
    lane (gLanesHalf R x r1 r2) i = mixWordsHalf (lane R i) x[i] r1 r2 := by
  simp [lane, gLanesHalf, lanes2, rotLanes, mixWordsHalf]

/-- The lane-wise `G` is `G` in every lane (R122, R128). -/
theorem lane_gLanes (R : Rows) (x y : Lanes) (i : Fin 4) :
    lane (gLanes R x y) i = mixWords (lane R i) x[i] y[i] := by
  rw [gLanes_eq_halves, lane_gLanesHalf, lane_gLanesHalf, mixWords]

/-- The rows that hold in lane `i` the words of call `i` of group `g`. -/
def rowsAt (g : Fin 2) (v : Vector Word 16) : Rows :=
  (Vector.ofFn fun i => v[quad[groupCall g i].a], Vector.ofFn fun i => v[quad[groupCall g i].b],
    Vector.ofFn fun i => v[quad[groupCall g i].c], Vector.ofFn fun i => v[quad[groupCall g i].d])

theorem lane_rowsAt (g : Fin 2) (v : Vector Word 16) (i : Fin 4) :
    lane (rowsAt g v) i = wordsAt v quad[groupCall g i] := by
  simp [lane, rowsAt, wordsAt]

theorem gather_getElem (m : Vector Word 16) (r : Fin 12) (o : Nat) (h : o + 6 < 16) (i : Fin 4) :
    (gather m r o h)[i] = m[sigma[r][o + 2 * i.val]] := by
  simp [gather]

/-- One lane-wise call on the rows of a group is the group's four calls (R126). -/
theorem gLanes_rowsAt (m : Vector Word 16) (r : Fin 12) (g : Fin 2) (v : Vector Word 16) :
    gLanes (rowsAt g v) (gather m r (8 * g.val) (by omega)) (gather m r (8 * g.val + 1) (by omega)) =
      rowsAt g ((groupCalls g).foldl (mixCall m r) v) := by
  refine rows_ext fun i => ?_
  have hi : groupCall g i ∈ groupCalls g := List.mem_map_of_mem (List.mem_finRange i)
  have hx : 8 * g.val + 2 * i.val = 2 * (groupCall g i).val := by simp only [groupCall]; omega
  have hy : 8 * g.val + 1 + 2 * i.val = 2 * (groupCall g i).val + 1 := by omega
  rw [lane_gLanes, lane_rowsAt, lane_rowsAt, wordsAt_foldl_mixCall m r v (groupCalls_disjoint g) hi]
  simp only [gather_getElem, hx, hy]

/-- The diagonals brought into columns: rows `b`, `c`, `d` turned by 1, 2, 3 lanes (R126). -/
def turned (R : Rows) : Rows :=
  (R.1, turn 1 R.2.1, turn 2 R.2.2.1, turn 3 R.2.2.2)

/-- The turns that take `turned` back. -/
def turnedBack (R : Rows) : Rows :=
  (R.1, turn 3 R.2.1, turn 2 R.2.2.1, turn 1 R.2.2.2)

theorem laneRound_eq (m : Vector Word 16) (R : Rows) (r : Fin 12) : laneRound m R r =
    turnedBack (gLanes (turned (gLanes R (gather m r 0 (by decide)) (gather m r 1 (by decide))))
      (gather m r 8 (by decide)) (gather m r 9 (by decide))) := rfl

theorem turned_rowsAt (v : Vector Word 16) : turned (rowsAt 0 v) = rowsAt 1 v := by
  refine rows_ext fun i => ?_
  fin_cases i <;> rfl

theorem turnedBack_rowsAt (v : Vector Word 16) : turnedBack (rowsAt 1 v) = rowsAt 0 v := by
  refine rows_ext fun i => ?_
  fin_cases i <;> rfl

/-- A round in lanes is the round (R126). -/
theorem laneRound_rowsAt (m v : Vector Word 16) (r : Fin 12) :
    laneRound m (rowsAt 0 v) r = rowsAt 0 (mixRound m v r) := by
  have hcolumns : gLanes (rowsAt 0 v) (gather m r 0 (by decide)) (gather m r 1 (by decide)) =
      rowsAt 0 ((groupCalls 0).foldl (mixCall m r) v) := gLanes_rowsAt m r 0 v
  have hdiagonals (w : Vector Word 16) : gLanes (rowsAt 1 w) (gather m r 8 (by decide)) (gather m r 9 (by decide)) =
      rowsAt 1 ((groupCalls 1).foldl (mixCall m r) w) := gLanes_rowsAt m r 1 w
  rw [laneRound_eq, hcolumns, turned_rowsAt, hdiagonals, turnedBack_rowsAt, mixRound_eq_groups]

/-- The variant starts from the rows of the working vector (R124). -/
theorem rowsAt_workingVector (hin : Vector Word 8) (t0 t1 f0 f1 : Word) :
    rowsAt 0 (workingVector hin t0 t1 f0 f1) =
      (⟨#[hin[0], hin[1], hin[2], hin[3]], rfl⟩, ⟨#[hin[4], hin[5], hin[6], hin[7]], rfl⟩,
        ⟨#[iv[0], iv[1], iv[2], iv[3]], rfl⟩,
        ⟨#[iv[4] ^^^ t0, iv[5] ^^^ t1, iv[6] ^^^ f0, iv[7] ^^^ f1], rfl⟩) := by
  refine rows_ext fun i => ?_
  fin_cases i <;> rfl

theorem foldl_laneRound_rowsAt (m v : Vector Word 16) :
    (List.finRange 12).foldl (laneRound m) (rowsAt 0 v) = rowsAt 0 (mixRounds m v) :=
  List.foldl_hom (rowsAt 0) fun v r => laneRound_rowsAt m v r

/-- The last line of `F` on rows (R125). -/
def feedForwardRows (hin : Vector Word 8) (R : Rows) : Vector Word 8 :=
  Vector.ofFn fun i =>
    if h : i.val < 4 then hin[i] ^^^ R.1[i.val] ^^^ R.2.2.1[i.val]
    else hin[i] ^^^ R.2.1[i.val - 4] ^^^ R.2.2.2[i.val - 4]

theorem feedForwardRows_rowsAt (hin : Vector Word 8) (v : Vector Word 16) :
    feedForwardRows hin (rowsAt 0 v) = feedForward hin v := by
  refine Vector.ext fun i hi => ?_
  interval_cases i <;> rfl

/-- The rounds in lanes are the rounds (R125, R126). -/
theorem laneRounds_eq (hin : Vector Word 8) (m : Vector Word 16) (t0 t1 f0 f1 : Word) :
    laneRounds hin m t0 t1 f0 f1 = feedForward hin (mixRounds m (workingVector hin t0 t1 f0 f1)) := by
  rw [← feedForwardRows_rowsAt, ← foldl_laneRound_rowsAt, rowsAt_workingVector, laneRounds]
  generalize (List.finRange 12).foldl (laneRound m) _ = R
  obtain ⟨ra, rb, rc, rd⟩ := R
  rfl

/-- A message word is the sum of its eight bytes (R124, R73). -/
theorem messageWords_eq (block : Bytes 128) : messageWords block = Vector.ofFn (messageWordAt block) := by
  refine Vector.ext fun k hk => ?_
  rw [messageWords, Vector.getElem_ofFn, Vector.getElem_ofFn, messageWordAt,
    ← memRead_eq_sum block (8 * k) 8 (by omega)]
  rfl

/-- Settles O20: the variant's message words are the model's, and its rounds are the rounds of `F` seen in rows
(R124 to R128). -/
theorem laneVariantEqualsTransform : Obligations.LaneVariantEqualsTransform := by
  intro hin block t0 t1 f0 f1
  rw [transformF, laneTransform, laneRounds_eq, messageWords_eq]

/-! ### `COMPRESS` -/

theorem wordsOf_eq (P : Bytes 64) : wordsOf P = Vector.ofFn (wordAt P) := by
  refine Vector.ext fun i hi => ?_
  rw [wordsOf_getElem, Vector.getElem_ofFn]

/-- Settles O29: `COMPRESS` has status 0 in every state, keeps the context, and answers the bytes that `writeWords_take`
reads from its eight word writes (R127). -/
theorem compressAnswersTransform : Obligations.CompressAnswersTransform := by
  intro s hin block t0 t1 f0 f1
  refine ⟨decode_encode (.compress hin block t0 t1 f0 f1), ?_⟩
  have hbytes := writeWords_take (Vector.replicate 64 0) (transformF (wordsOf hin) block t0 t1 f0 f1) le_rfl
  rw [List.take_of_length_le (by simp), wordsOf_eq] at hbytes
  rw [exec_of_status_eq_zero (i := .compress hin block t0 t1 f0 f1) rfl, State.payload, wordsOf_eq, hbytes]
  rfl

end Sys2Proof.Machine
end
section
/-! The rules of exceptions (spec/60_exceptions.md R140 to R144). What a step does with a packet, malformed or not, is
said once in `step_answers_packet`; the three rules read it off. -/

namespace Sys2Proof.Machine

open Sys2Proof.Claims

/-- R140 has no code above 8. -/
theorem statusOf_le_eight (i : Instr) (phase : Phase) (outlen : Byte) :
    (Claims.statusOf i phase outlen).toNat ≤ 8 := by
  cases i with
  | wipe => exact Nat.zero_le 8
  | compress hin block t0 t1 f0 f1 => exact Nat.zero_le 8
  | _ =>
    dsimp only [Claims.statusOf]
    split_ifs <;> decide

/-- The status a packet is answered with: that of a malformed one first, then that of its command (R142). -/
def State.packetStatus (s : State) (K : List Byte) : Byte :=
  match decode K with
  | .error _ => 0x08
  | .ok i => s.statusOf i

section
variable {s : State} {K : List Byte} {rest : List (List Byte)}

theorem State.packetStatus_of_decode_error {e : Malformed} (hK : decode K = .error e) : s.packetStatus K = 0x08 := by
  rw [State.packetStatus, hK]

theorem State.packetStatus_of_decode_ok {i : Instr} (hK : decode K = .ok i) : s.packetStatus K = s.statusOf i := by
  rw [State.packetStatus, hK]

theorem State.packetStatus_le_eight (s : State) (K : List Byte) : (s.packetStatus K).toNat ≤ 8 := by
  cases hK : decode K with
  | error e => rw [State.packetStatus_of_decode_error hK]; decide
  | ok i => rw [State.packetStatus_of_decode_ok hK]; exact statusOf_le_eight i _ _

/-- A step takes the packet and answers it with its status; a status other than 0 keeps the context and has no payload
(R140, R141). -/
theorem step_answers_packet (hs : s.cmds = K :: rest) : ∃ (c : Context) (pay : List Byte),
    step s = .next { answered { s with cmds := rest } (s.packetStatus K) pay with ctx := c } ∧
    (s.packetStatus K ≠ 0 → c = s.ctx ∧ pay = []) := by
  cases hK : decode K with
  | error e =>
    obtain ⟨-, -, hstep⟩ := malformedPacketsAreRefused
    rw [State.packetStatus_of_decode_error hK]
    exact ⟨s.ctx, [], hstep s K rest e hs hK, fun _ => ⟨rfl, rfl⟩⟩
  | ok i =>
    rw [State.packetStatus_of_decode_ok hK, stepRunsDecodedCommand s K rest i hs hK]
    by_cases h : s.statusOf i = 0
    · rw [h]
      exact ⟨_, _, exec_of_status_eq_zero h, fun hne => absurd rfl hne⟩
    · exact ⟨s.ctx, [], exec_of_status_ne_zero rfl h, fun _ => ⟨rfl, rfl⟩⟩

end

/-- Settles O30: the response begins with the packet's status, and a status other than 0 leaves it no payload
(R140, R142). -/
theorem statusIsFirstFailingCheck : Obligations.StatusIsFirstFailingCheck := by
  intro s K rest hs
  obtain ⟨c, pay, hstep, herror⟩ := step_answers_packet hs
  refine ⟨_, _, hstep, rfl, fun e hK => ?_, fun i hK => ?_, s.packetStatus_le_eight K, fun hne => ?_⟩
  · exact congrArg some (State.packetStatus_of_decode_error hK)
  · exact congrArg some (State.packetStatus_of_decode_ok hK)
  · obtain ⟨-, rfl⟩ := herror hne
    rfl

/-- Settles O31: the first byte of the response is the packet's status, which is not 0 (R141). -/
theorem errorsChangeNoRegister : Obligations.ErrorsChangeNoRegister := by
  intro s t K rest Q hs ht hQ hne
  obtain ⟨c, pay, hstep, herror⟩ := step_answers_packet hs
  obtain rfl := Host.Outcome.next.inj (hstep.symm.trans ht)
  obtain rfl := List.singleton_inj.1 (List.append_cancel_left hQ)
  obtain ⟨rfl, rfl⟩ := herror hne
  exact ⟨rfl, rfl, rfl, rfl⟩

/-- Settles O36: an empty port lets the engine wait, and every packet is answered (R143, R144). -/
theorem engineNeverStops : Obligations.EngineNeverStops := by
  intro s
  cases hs : s.cmds with
  | nil => exact ⟨s, engineWaitsWithoutPacket s hs⟩
  | cons K rest =>
    obtain ⟨c, pay, hstep, -⟩ := step_answers_packet hs
    exact ⟨_, hstep⟩

end Sys2Proof.Machine
end
section
/-! Packets written out byte by byte (spec/95_test_vectors.md section 2.7). A written packet decodes to a command when
the encoder gives it for that command, so each reads as one row of the operand table of R53. -/

namespace Sys2Proof

open Claims

theorem decode_of_encode_eq {i : Instr} {K : List Byte} (hK : encode i = K) : decode K = .ok i :=
  hK ▸ decode_encode i

/-- The packet has passed test 2 and fails test 3 (R56). -/
theorem decode_of_not_reservedClear {k0 k1 k2 k3 : Byte} (hknown : knownOpcode k0)
    (hclear : ¬ reservedClear k0 k1 k2 k3) (pay : List Byte) :
    decode (k0 :: k1 :: k2 :: k3 :: pay) = .error .reservedBits := by
  obtain ⟨-, hheader, -⟩ := malformedPacketsAreRefused
  obtain ⟨-, hbits, -⟩ := hheader k0 k1 k2 k3 pay
  exact hbits.2 ⟨hknown, hclear⟩

/-- Bits 2 to 7 of the flag byte `C` of `PBUILD` are reserved (R53, R54). -/
theorem reservedClear_pbuild_iff (k1 k2 k3 : Byte) : reservedClear 0x10 k1 k2 k3 ↔ k3.toNat < 4 :=
  reservedClear_iff .pbuild k1 k2 k3

/-- Settles O7: the six packets are those the encoder gives for their commands, and the last one has bit 2 of
the flag byte of `PBUILD` set, which is reserved (section 2.7). -/
theorem writtenPacketsDecode : Obligations.WrittenPacketsDecode := by
  refine ⟨?pbuild, ?init, ?initKeyed, ?update, ?final, ?wipe, ?reserved⟩
  case pbuild => exact decode_of_encode_eq rfl
  case init => exact decode_of_encode_eq rfl
  case initKeyed => exact decode_of_encode_eq rfl
  case update => exact decode_of_encode_eq rfl
  case final => exact decode_of_encode_eq rfl
  case wipe => exact decode_of_encode_eq rfl
  case reserved =>
    have hknown : knownOpcode 0x10 := (knownOpcode_iff _).2 ⟨.pbuild, rfl⟩
    have hbit : ¬ reservedClear 0x10 0x40 0x00 0x04 := mt (reservedClear_pbuild_iff ..).1 (by decide)
    exact decode_of_not_reservedClear hknown hbit []

end Sys2Proof
end
